-- ==== Sys2Proof/Word.lean ====
section
/-! DEFINITION. The widths of the machine's values (spec R7, R61): what the spec treats as bits is a bit vector. -/

namespace Sys2Proof

/-- A 4-bit field of an instruction word: a register index `x`, `y`, or the count `n` (R61). -/
abbrev Nibble := BitVec 4

/-- A memory cell, a general register, a timer, an immediate `kk` (R7). -/
abbrev Byte := BitVec 8

/-- The 12-bit address field `nnn` (R61). -/
abbrev Addr := BitVec 12

/-- An instruction word, `I`, `pc`, a return address (R7). -/
abbrev Word := BitVec 16

end Sys2Proof
end

