-- ==== Sys2Proof/Syntax.lean ====
section
/-! DEFINITION. The 34 instructions of R65, one constructor per row of spec/opcode_table.json, in its order.
An argument `ign` holds the bits the row ignores (R66), so that no bit of a word is lost by decoding
(notes/assumptions/10.md). -/

namespace Sys2Proof

/-- An instruction of the engine (R65). -/
inductive Instr where
  /-- `CLS` (R142). -/
  | cls (ign : Nibble)
  /-- `RET` (R83). -/
  | ret (ign : Nibble)
  /-- `JP addr` (R84). -/
  | jpAddr (nnn : Addr)
  /-- `CALL addr` (R85). -/
  | callAddr (nnn : Addr)
  /-- `SE Vx,byte` (R88). -/
  | seVxByte (x : Nibble) (kk : Byte)
  /-- `SNE Vx,byte` (R89). -/
  | sneVxByte (x : Nibble) (kk : Byte)
  /-- `SE Vx,Vy` (R90). -/
  | seVxVy (x y ign : Nibble)
  /-- `LD Vx,byte` (R100). -/
  | ldVxByte (x : Nibble) (kk : Byte)
  /-- `ADD Vx,byte` (R101). -/
  | addVxByte (x : Nibble) (kk : Byte)
  /-- `LD Vx,Vy` (R102). -/
  | ldVxVy (x y : Nibble)
  /-- `OR Vx,Vy` (R103). -/
  | orVxVy (x y : Nibble)
  /-- `AND Vx,Vy` (R104). -/
  | andVxVy (x y : Nibble)
  /-- `XOR Vx,Vy` (R105). -/
  | xorVxVy (x y : Nibble)
  /-- `ADD Vx,Vy` (R106). -/
  | addVxVy (x y : Nibble)
  /-- `SUB Vx,Vy` (R107). -/
  | subVxVy (x y : Nibble)
  /-- `SHR Vx` (R108). -/
  | shrVx (x ign : Nibble)
  /-- `SUBN Vx,Vy` (R109). -/
  | subnVxVy (x y : Nibble)
  /-- `SHL Vx` (R110). -/
  | shlVx (x ign : Nibble)
  /-- `SNE Vx,Vy` (R91). -/
  | sneVxVy (x y ign : Nibble)
  /-- `LD I,addr` (R120). -/
  | ldIAddr (nnn : Addr)
  /-- `JP V0,addr` (R87). -/
  | jpV0Addr (nnn : Addr)
  /-- `RND Vx,byte` (R122). -/
  | rndVxByte (x : Nibble) (kk : Byte)
  /-- `DRW Vx,Vy,n` (R145). -/
  | drwVxVyN (x y n : Nibble)
  /-- `SKP Vx` (R180). -/
  | skpVx (x : Nibble)
  /-- `SKNP Vx` (R181). -/
  | sknpVx (x : Nibble)
  /-- `LD Vx,DT` (R167). -/
  | ldVxDt (x : Nibble)
  /-- `LD Vx,K` (R183). -/
  | ldVxK (x : Nibble)
  /-- `LD DT,Vx` (R168). -/
  | ldDtVx (x : Nibble)
  /-- `LD ST,Vx` (R169). -/
  | ldStVx (x : Nibble)
  /-- `ADD I,Vx` (R123). -/
  | addIVx (x : Nibble)
  /-- `LD F,Vx` (R124). -/
  | ldFVx (x : Nibble)
  /-- `LD B,Vx` (R125). -/
  | ldBVx (x : Nibble)
  /-- `LD [I],Vx` (R126). -/
  | ldMemVx (x : Nibble)
  /-- `LD Vx,[I]` (R127). -/
  | ldVxMem (x : Nibble)
  deriving DecidableEq, Repr

end Sys2Proof
end

