-- ==== Sys2Proof/WellFormed.lean ====
section
/-! DEFINITION. Which instructions are in the form an assembler emits (R66): every ignored bit is 0.
Register indices, immediates, addresses and counts need no check: each of their values is legal (R63) and their
types hold no other. The decoder answers, and the machine runs, the other instructions too (R66). -/

namespace Sys2Proof

/-- The canonical form of R66: "every ignored bit 0". -/
def Instr.wellFormed : Instr → Bool
  | .cls ign => ign == 0
  | .ret ign => ign == 0
  | .seVxVy _ _ ign => ign == 0
  | .sneVxVy _ _ ign => ign == 0
  | .shrVx _ ign => ign == 0
  | .shlVx _ ign => ign == 0
  | .jpAddr _ | .callAddr _ | .seVxByte _ _ | .sneVxByte _ _ | .ldVxByte _ _ | .addVxByte _ _ => true
  | .ldVxVy _ _ | .orVxVy _ _ | .andVxVy _ _ | .xorVxVy _ _ | .addVxVy _ _ | .subVxVy _ _ | .subnVxVy _ _ => true
  | .ldIAddr _ | .jpV0Addr _ | .rndVxByte _ _ | .drwVxVyN _ _ _ | .skpVx _ | .sknpVx _ => true
  | .ldVxDt _ | .ldVxK _ | .ldDtVx _ | .ldStVx _ | .addIVx _ | .ldFVx _ | .ldBVx _ | .ldMemVx _ | .ldVxMem _ => true

/-- The same instruction with its ignored bits cleared: R66, "any value selects the same instruction with the same
effect". -/
def Instr.canonical : Instr → Instr
  | .cls _ => .cls 0
  | .ret _ => .ret 0
  | .seVxVy x y _ => .seVxVy x y 0
  | .sneVxVy x y _ => .sneVxVy x y 0
  | .shrVx x _ => .shrVx x 0
  | .shlVx x _ => .shlVx x 0
  | .jpAddr a => .jpAddr a
  | .callAddr a => .callAddr a
  | .seVxByte x k => .seVxByte x k
  | .sneVxByte x k => .sneVxByte x k
  | .ldVxByte x k => .ldVxByte x k
  | .addVxByte x k => .addVxByte x k
  | .ldVxVy x y => .ldVxVy x y
  | .orVxVy x y => .orVxVy x y
  | .andVxVy x y => .andVxVy x y
  | .xorVxVy x y => .xorVxVy x y
  | .addVxVy x y => .addVxVy x y
  | .subVxVy x y => .subVxVy x y
  | .subnVxVy x y => .subnVxVy x y
  | .ldIAddr a => .ldIAddr a
  | .jpV0Addr a => .jpV0Addr a
  | .rndVxByte x k => .rndVxByte x k
  | .drwVxVyN x y n => .drwVxVyN x y n
  | .skpVx x => .skpVx x
  | .sknpVx x => .sknpVx x
  | .ldVxDt x => .ldVxDt x
  | .ldVxK x => .ldVxK x
  | .ldDtVx x => .ldDtVx x
  | .ldStVx x => .ldStVx x
  | .addIVx x => .addIVx x
  | .ldFVx x => .ldFVx x
  | .ldBVx x => .ldBVx x
  | .ldMemVx x => .ldMemVx x
  | .ldVxMem x => .ldVxMem x

end Sys2Proof
end

