-- ==== Sys2Proof/Decode.lean ====
section
/-! DEFINITION. The decoder (R60 to R71): fields of a word, the two-stage dispatch of R64, the table of R65, and the
encoder. Kept apart from what the instructions do, so that the opcode numbers can be replaced (D1,
notes/assumptions/9.md). -/

namespace Sys2Proof

/-! ## Fields (R61) -/

/-- `w[15:12]`, the major opcode. -/
def prefixOf (w : Word) : Nibble := w.extractLsb' 12 4

/-- `w[11:8]`, the register index `x`. -/
def xOf (w : Word) : Nibble := w.extractLsb' 8 4

/-- `w[7:4]`, the register index `y`. -/
def yOf (w : Word) : Nibble := w.extractLsb' 4 4

/-- `w[3:0]`, the count or minor opcode `n`. -/
def nOf (w : Word) : Nibble := w.extractLsb' 0 4

/-- `w[7:0]`, the immediate or minor opcode `kk`. -/
def kkOf (w : Word) : Byte := w.extractLsb' 0 8

/-- `w[11:0]`, the address `nnn`. -/
def nnnOf (w : Word) : Addr := w.extractLsb' 0 12

/-- Big-endian (R41): the byte at the lower address is the high byte of the word. -/
def wordOfBytes (hi lo : Byte) : Word := hi ++ lo

/-- `w[15:8]`, the byte of `w` at the lower address (R41). -/
def highByte (w : Word) : Byte := w.extractLsb' 8 8

/-- `w[7:0]`, the byte of `w` at the higher address (R41). -/
def lowByte (w : Word) : Byte := w.extractLsb' 0 8

/-! ## Decoding -/

/-- Why a word is no instruction. -/
inductive DecodeError where
  /-- The word matches no row of R65 (R68). Not a fault: the engine runs it as a no-op. -/
  | unrecognizedOpcode (w : Word)
  deriving DecidableEq, Repr

/-- Stage 2 for prefix 0: the secondary field is `kk` (R64). -/
def decode0 (w : Word) : Except DecodeError Instr :=
  if kkOf w = 0xE0 then .ok (.cls (xOf w))
  else if kkOf w = 0xEE then .ok (.ret (xOf w))
  else .error (.unrecognizedOpcode w)

/-- Stage 2 for prefix 8: the secondary field is `n` (R64). -/
def decode8 (w : Word) : Except DecodeError Instr :=
  if nOf w = 0x0 then .ok (.ldVxVy (xOf w) (yOf w))
  else if nOf w = 0x1 then .ok (.orVxVy (xOf w) (yOf w))
  else if nOf w = 0x2 then .ok (.andVxVy (xOf w) (yOf w))
  else if nOf w = 0x3 then .ok (.xorVxVy (xOf w) (yOf w))
  else if nOf w = 0x4 then .ok (.addVxVy (xOf w) (yOf w))
  else if nOf w = 0x5 then .ok (.subVxVy (xOf w) (yOf w))
  else if nOf w = 0x6 then .ok (.shrVx (xOf w) (yOf w))
  else if nOf w = 0x7 then .ok (.subnVxVy (xOf w) (yOf w))
  else if nOf w = 0xE then .ok (.shlVx (xOf w) (yOf w))
  else .error (.unrecognizedOpcode w)

/-- Stage 2 for prefix E: the secondary field is `kk` (R64). -/
def decodeE (w : Word) : Except DecodeError Instr :=
  if kkOf w = 0x9E then .ok (.skpVx (xOf w))
  else if kkOf w = 0xA1 then .ok (.sknpVx (xOf w))
  else .error (.unrecognizedOpcode w)

/-- Stage 2 for prefix F: the secondary field is `kk` (R64). -/
def decodeF (w : Word) : Except DecodeError Instr :=
  if kkOf w = 0x07 then .ok (.ldVxDt (xOf w))
  else if kkOf w = 0x0A then .ok (.ldVxK (xOf w))
  else if kkOf w = 0x15 then .ok (.ldDtVx (xOf w))
  else if kkOf w = 0x18 then .ok (.ldStVx (xOf w))
  else if kkOf w = 0x1E then .ok (.addIVx (xOf w))
  else if kkOf w = 0x29 then .ok (.ldFVx (xOf w))
  else if kkOf w = 0x33 then .ok (.ldBVx (xOf w))
  else if kkOf w = 0x55 then .ok (.ldMemVx (xOf w))
  else if kkOf w = 0x65 then .ok (.ldVxMem (xOf w))
  else .error (.unrecognizedOpcode w)

/-- The decoder: stage 1 looks at the prefix alone (R64), and no other bit is examined for the prefixes that stand
for one instruction. -/
def decodeWord (w : Word) : Except DecodeError Instr :=
  if prefixOf w = 0x0 then decode0 w
  else if prefixOf w = 0x1 then .ok (.jpAddr (nnnOf w))
  else if prefixOf w = 0x2 then .ok (.callAddr (nnnOf w))
  else if prefixOf w = 0x3 then .ok (.seVxByte (xOf w) (kkOf w))
  else if prefixOf w = 0x4 then .ok (.sneVxByte (xOf w) (kkOf w))
  else if prefixOf w = 0x5 then .ok (.seVxVy (xOf w) (yOf w) (nOf w))
  else if prefixOf w = 0x6 then .ok (.ldVxByte (xOf w) (kkOf w))
  else if prefixOf w = 0x7 then .ok (.addVxByte (xOf w) (kkOf w))
  else if prefixOf w = 0x8 then decode8 w
  else if prefixOf w = 0x9 then .ok (.sneVxVy (xOf w) (yOf w) (nOf w))
  else if prefixOf w = 0xA then .ok (.ldIAddr (nnnOf w))
  else if prefixOf w = 0xB then .ok (.jpV0Addr (nnnOf w))
  else if prefixOf w = 0xC then .ok (.rndVxByte (xOf w) (kkOf w))
  else if prefixOf w = 0xD then .ok (.drwVxVyN (xOf w) (yOf w) (nOf w))
  else if prefixOf w = 0xE then decodeE w
  else decodeF w  -- the one prefix left, 0xF

/-- The decoder on the two bytes an instruction occupies in memory, lowest address first (R60, R41). -/
def decodeBytes (first second : Byte) : Except DecodeError Instr :=
  decodeWord (wordOfBytes first second)

/-! ## Encoding (R62, R65) -/

/-- Formats `A`: a prefix and `nnn`. -/
def packA (p : Nibble) (nnn : Addr) : Word := p ++ nnn

/-- Formats `Z`, `XK` and `X`: a prefix, `x` (or the ignored bits in its place) and `kk`. -/
def packXK (p x : Nibble) (kk : Byte) : Word := p ++ (x ++ kk : Addr)

/-- Formats `XY` and `XYN`: a prefix, `x`, `y` and `n`. -/
def packXYN (p x y n : Nibble) : Word := packXK p x (y ++ n)

/-- The word of an instruction, by the patterns of R65. -/
def encode : Instr → Word
  | .cls ign => packXK 0x0 ign 0xE0
  | .ret ign => packXK 0x0 ign 0xEE
  | .jpAddr nnn => packA 0x1 nnn
  | .callAddr nnn => packA 0x2 nnn
  | .seVxByte x kk => packXK 0x3 x kk
  | .sneVxByte x kk => packXK 0x4 x kk
  | .seVxVy x y ign => packXYN 0x5 x y ign
  | .ldVxByte x kk => packXK 0x6 x kk
  | .addVxByte x kk => packXK 0x7 x kk
  | .ldVxVy x y => packXYN 0x8 x y 0x0
  | .orVxVy x y => packXYN 0x8 x y 0x1
  | .andVxVy x y => packXYN 0x8 x y 0x2
  | .xorVxVy x y => packXYN 0x8 x y 0x3
  | .addVxVy x y => packXYN 0x8 x y 0x4
  | .subVxVy x y => packXYN 0x8 x y 0x5
  | .shrVx x ign => packXYN 0x8 x ign 0x6
  | .subnVxVy x y => packXYN 0x8 x y 0x7
  | .shlVx x ign => packXYN 0x8 x ign 0xE
  | .sneVxVy x y ign => packXYN 0x9 x y ign
  | .ldIAddr nnn => packA 0xA nnn
  | .jpV0Addr nnn => packA 0xB nnn
  | .rndVxByte x kk => packXK 0xC x kk
  | .drwVxVyN x y n => packXYN 0xD x y n
  | .skpVx x => packXK 0xE x 0x9E
  | .sknpVx x => packXK 0xE x 0xA1
  | .ldVxDt x => packXK 0xF x 0x07
  | .ldVxK x => packXK 0xF x 0x0A
  | .ldDtVx x => packXK 0xF x 0x15
  | .ldStVx x => packXK 0xF x 0x18
  | .addIVx x => packXK 0xF x 0x1E
  | .ldFVx x => packXK 0xF x 0x29
  | .ldBVx x => packXK 0xF x 0x33
  | .ldMemVx x => packXK 0xF x 0x55
  | .ldVxMem x => packXK 0xF x 0x65

/-- The `mask` and `match` columns of an instruction's row in R65: a word is the instruction iff
`w &&& mask = match`. -/
def opcodeRow : Instr → Word × Word
  | .cls _ => (0xF0FF, 0x00E0)
  | .ret _ => (0xF0FF, 0x00EE)
  | .jpAddr _ => (0xF000, 0x1000)
  | .callAddr _ => (0xF000, 0x2000)
  | .seVxByte _ _ => (0xF000, 0x3000)
  | .sneVxByte _ _ => (0xF000, 0x4000)
  | .seVxVy _ _ _ => (0xF000, 0x5000)
  | .ldVxByte _ _ => (0xF000, 0x6000)
  | .addVxByte _ _ => (0xF000, 0x7000)
  | .ldVxVy _ _ => (0xF00F, 0x8000)
  | .orVxVy _ _ => (0xF00F, 0x8001)
  | .andVxVy _ _ => (0xF00F, 0x8002)
  | .xorVxVy _ _ => (0xF00F, 0x8003)
  | .addVxVy _ _ => (0xF00F, 0x8004)
  | .subVxVy _ _ => (0xF00F, 0x8005)
  | .shrVx _ _ => (0xF00F, 0x8006)
  | .subnVxVy _ _ => (0xF00F, 0x8007)
  | .shlVx _ _ => (0xF00F, 0x800E)
  | .sneVxVy _ _ _ => (0xF000, 0x9000)
  | .ldIAddr _ => (0xF000, 0xA000)
  | .jpV0Addr _ => (0xF000, 0xB000)
  | .rndVxByte _ _ => (0xF000, 0xC000)
  | .drwVxVyN _ _ _ => (0xF000, 0xD000)
  | .skpVx _ => (0xF0FF, 0xE09E)
  | .sknpVx _ => (0xF0FF, 0xE0A1)
  | .ldVxDt _ => (0xF0FF, 0xF007)
  | .ldVxK _ => (0xF0FF, 0xF00A)
  | .ldDtVx _ => (0xF0FF, 0xF015)
  | .ldStVx _ => (0xF0FF, 0xF018)
  | .addIVx _ => (0xF0FF, 0xF01E)
  | .ldFVx _ => (0xF0FF, 0xF029)
  | .ldBVx _ => (0xF0FF, 0xF033)
  | .ldMemVx _ => (0xF0FF, 0xF055)
  | .ldVxMem _ => (0xF0FF, 0xF065)

/-! ## The opcode table's own numbering -/

/-- The word of the instruction whose bits are `w`, bit 0 the least significant bit of its one word (R8, R60). -/
def tableWord (nbits w : Nat) : Word := BitVec.ofNat 16 (w % 2 ^ nbits)

/-- What the decoder answers for the instruction whose bits are `w`, laid out in memory as R41 says: high byte first.
Every instruction has 16 bits (R60). -/
def decodeTableWord (nbits w : Nat) : Option Instr :=
  match decodeBytes (highByte (tableWord nbits w)) (lowByte (tableWord nbits w)) with
  | .ok i => some i
  | .error _ => none

end Sys2Proof
end

