-- ==== Sys2Proof/Machine/Font.lean ====
section
/-! DEFINITION. The font table `FONT` that `init()` installs at `0x050` (R31): a configuration table whose row 5 is
fixed, and its default. -/

namespace Sys2Proof.Machine

/-- One glyph: five sprite rows, top row first (R31). -/
abbrev Glyph := Vector Byte 5

/-- The glyph of the digit 5, the only one the source gives (R31). -/
def glyphFive : Glyph := #v[0xF0, 0x80, 0xF0, 0x10, 0xF0]

/-- `FONT` as a configuration table with row 5 fixed (R31, D4): it has no place for another glyph 5, and leaves the
other fifteen open. -/
structure Font where
  /-- The glyphs of the digits 0 to 4. -/
  below : Vector Glyph 5
  /-- The glyphs of the digits 6 to F. -/
  above : Vector Glyph 10
  deriving DecidableEq, Repr

/-- The sixteen glyphs, of the hexadecimal digits 0 to F in order (R31). -/
def Font.glyphs (f : Font) : List Glyph := f.below.toList ++ glyphFive :: f.above.toList

/-- The 80 bytes of `FONT`, glyph 0 first (R31). -/
def Font.bytes (f : Font) : List Byte := f.glyphs.flatMap Vector.toList

/-- The default of R31's table: the customary CHIP-8 glyphs, marked there `[from general knowledge, not in source]`
(PRESUMED, notes/assumptions/4.md). -/
def defaultFont : Font where
  below := #v[
    #v[0xF0, 0x90, 0x90, 0x90, 0xF0],
    #v[0x20, 0x60, 0x20, 0x20, 0x70],
    #v[0xF0, 0x10, 0xF0, 0x80, 0xF0],
    #v[0xF0, 0x10, 0xF0, 0x10, 0xF0],
    #v[0x90, 0x90, 0xF0, 0x10, 0x10]]
  above := #v[
    #v[0xF0, 0x80, 0xF0, 0x90, 0xF0],
    #v[0xF0, 0x10, 0x20, 0x40, 0x40],
    #v[0xF0, 0x90, 0xF0, 0x90, 0xF0],
    #v[0xF0, 0x90, 0xF0, 0x10, 0xF0],
    #v[0xF0, 0x90, 0xF0, 0x90, 0x90],
    #v[0xE0, 0x90, 0xE0, 0x90, 0xE0],
    #v[0xF0, 0x80, 0x80, 0x80, 0xF0],
    #v[0xE0, 0x90, 0x90, 0x90, 0xE0],
    #v[0xF0, 0x80, 0xF0, 0x80, 0xF0],
    #v[0xF0, 0x80, 0xF0, 0x80, 0x80]]

end Sys2Proof.Machine
end

