-- ==== Sys2Proof/Config.lean ====
section
/-! DEFINITION. What is fixed for one machine: the parameters of R6, and the one value the spec leaves free. -/

namespace Sys2Proof.Config

/-- `MEM_SIZE` (R6): addresses `0x000` to `0xFFF`. -/
def memSize : Nat := 4096

/-- `PROGRAM_OFFSET` (R6), fixed at `0x200` by the spec's decision D26. -/
def programOffset : Word := 0x200

/-- `FONT_OFFSET` (R6). -/
def fontOffset : Nat := 0x050

/-- `rndByte k` is the byte the random source gives at its `k`-th draw (R122: "a free input of this step").
FREE VALUE, notes/assumptions/1.md: an opaque constant, so nothing can be proved of what it is. -/
opaque rndByte : Nat → Byte

/-- What is open in R6 for one machine: the two switches, of which `spriteClip = true` has no meaning in the spec and is
refused (R152), and the font table, row 5 of it fixed (R31). -/
structure Params where
  /-- `ADDR_WRAP_COMPAT` (R46). -/
  addrWrapCompat : Bool
  /-- `SPRITE_CLIP` (R152). -/
  spriteClip : Bool
  /-- `FONT` (R31, D4). -/
  font : Machine.Font
  deriving DecidableEq, Repr

/-- The values R6 gives: both switches off, and the default font of R31. -/
def defaultParams : Params := { addrWrapCompat := false, spriteClip := false, font := Machine.defaultFont }

end Sys2Proof.Config
end

