-- ==== Sys2Proof/Machine/State.lean ====
section
/-! DEFINITION. The state of the machine (spec/10_state.md), why a step can stop, and the state right after
`init()` (R250). All of it plain data. -/

namespace Sys2Proof.Machine

/-- The three runtime faults (R220): named, without payload. A fault ends the step, is returned to the host, and
leaves the state as it was (R224, R231). -/
inductive Fault where
  /-- Raised by `CALL addr` iff `SP = 16` (R221). SAFE: the spec's own fault. -/
  | stackOverflow
  /-- Raised by `RET` iff `SP = 0` (R222). SAFE: the spec's own fault. -/
  | stackUnderflow
  /-- Raised by the fetch, `DRW`, `LD B,Vx`, `LD [I],Vx` and `LD Vx,[I]` iff the last byte of the access lies above
  `0xFFF` (R223). SAFE: the spec's own fault. -/
  | outOfRangeMemoryAccess
  deriving DecidableEq, Repr

/-- Why the model would have no meaning for an instruction. -/
inductive Refusal where
  /-- Raised by an arm of `exec` for an instruction without a meaning. SAFE: the model stops. No arm raises it: every
  instruction has its meaning. -/
  | notModelled (mnemonic : String)
  deriving DecidableEq, Repr

/-- The engine's run state (R16): not a privilege level (R234). -/
inductive Mode where
  /-- The next step is an instruction cycle (R82). -/
  | running
  /-- The next step polls the keypad for register `r` (R184). -/
  | waitingForKey (r : Nibble)
  deriving DecidableEq, Repr

/-- The contents of `MEM`: (address, byte) pairs in one canonical form, addresses rising, no entry equal to what an
unlisted address reads as (`Memory.wf`). -/
abbrev Memory := List Host.Cell

/-- `FB[y][x]`: 32 rows of 64 pixels, `true` for a lit one (R22). -/
abbrev Grid := Vector (Vector Bool 64) 32

/-- The framebuffer controller's state (R22, R23, R26). -/
structure Fbc where
  /-- `FB` (R22). -/
  fb : Grid
  /-- `DIRTY` (R23). -/
  dirty : Bool
  deriving DecidableEq, Repr

/-- The timer pair's state (R24, R25, R26). -/
structure Tmr where
  /-- `DT` (R24). -/
  dt : Byte
  /-- `ST` (R25). -/
  st : Byte
  deriving DecidableEq, Repr

/-- Everything the spec gives the machine (10_state.md section 1), and three fields that are the model's own
(`addrWrapCompat`, `font`, `draws`). -/
structure State where
  /-- `V[0..15]` (R10). -/
  v : Vector Byte 16
  /-- `I`, which may hold values above `0xFFF` (R12). -/
  i : Word
  /-- `pc`, never reduced to 12 bits (R13). -/
  pc : Word
  /-- `SP`, the number of return addresses on the stack, 0 to 16 (R15). -/
  sp : Fin 17
  /-- `STACK[0..15]` (R14). -/
  stack : Vector Word 16
  /-- `MODE` (R16). -/
  mode : Mode
  /-- `KEY[0..15]`, `true` for pressed (R17). -/
  key : Vector Bool 16
  /-- `MEM` (R18). -/
  mem : Memory
  /-- The framebuffer controller. -/
  fbc : Fbc
  /-- The timer pair. -/
  tmr : Tmr
  /-- The parameter `ADDR_WRAP_COMPAT` (R46) of this machine. DESIGN CHOICE, notes/assumptions/2.md: held here so that
  both of its values are modelled; nothing writes it. -/
  addrWrapCompat : Bool
  /-- The parameter `FONT` (R31) of this machine, which `init()` installs. DESIGN CHOICE, notes/assumptions/4.md: held
  here so that every font the spec allows is modelled; nothing writes it. -/
  font : Font
  /-- How many bytes the random source has given. DESIGN CHOICE, notes/assumptions/1.md: the model's own counter, so
  that each `RND` takes a fresh free byte (R122). -/
  draws : Nat
  deriving DecidableEq, Repr

/-- A blank screen (R250). -/
def blankGrid : Grid := Vector.replicate 32 (Vector.replicate 64 false)

/-- The state `init()` creates on a machine with the default parameters (R250). Memory lists nothing: an unlisted
address reads as this `init()` leaves it (`Memory.resetByte`), the font included. -/
def State.reset : State where
  v := Vector.replicate 16 0
  i := 0
  pc := Config.programOffset
  sp := 0
  stack := Vector.replicate 16 0
  mode := .running
  key := Vector.replicate 16 false
  mem := []
  fbc := { fb := blankGrid, dirty := false }
  tmr := { dt := 0, st := 0 }
  addrWrapCompat := Config.defaultParams.addrWrapCompat
  font := Config.defaultParams.font
  draws := 0

end Sys2Proof.Machine
end

