-- ==== Sys2Proof/Machine/Ops.lean ====
section
/-! DEFINITION. The named operations over memory, registers and the stack, raising a fault, and fetching. -/

namespace Sys2Proof.Machine

/-- What a meaning answers. -/
abbrev Result := Host.Outcome State Fault Refusal

/-! ## Faults (60_exceptions.md) -/

/-- Taking an exception. The spec has no trap entry inside the machine: nothing is saved, there is no handler, and the
fault is the result of the step, whose state stays as it was (R224, R231). There is no return from one (R232). -/
def raise (f : Fault) : Result := .fault f

/-! ## Memory (20_memory.md) -/

/-- What an address nothing has written reads as: what `init()` leaves there with the default font, that font at
`0x050..0x09F` and 0 elsewhere (R40, R250; notes/assumptions/5.md). With another font `init()` lists the bytes that
differ (`installFont`). -/
def Memory.resetByte (a : Nat) : Byte :=
  if Config.fontOffset ≤ a then defaultFont.bytes.getD (a - Config.fontOffset) 0 else 0

/-- `MEM[a]`. The range check of R45 stands before every use (`State.fetch`, `State.readData`). -/
def Memory.read : Memory → Nat → Byte
  | [], a => Memory.resetByte a
  | (a', b) :: m, a => if a = a' then b else Memory.read m a

/-- `MEM[a] <- b`, keeping the canonical form: the byte an unlisted address reads as is not listed. -/
def Memory.write : Memory → Nat → Byte → Memory
  | [], a, b => if b = Memory.resetByte a then [] else [(a, b)]
  | (a', b') :: m, a, b =>
    if a < a' then if b = Memory.resetByte a then (a', b') :: m else (a, b) :: (a', b') :: m
    else if a = a' then if b = Memory.resetByte a then m else (a, b) :: m
    else (a', b') :: Memory.write m a b

/-- Writes in order, first pair first. -/
def Memory.writeAll (m : Memory) (l : List (Nat × Byte)) : Memory :=
  l.foldl (fun m p => Memory.write m p.1 p.2) m

/-- The (address, byte) pairs of bytes laid out from address `a` on, the first at `a`: a program image (R201), the font
(R31). -/
def cellsFrom : Nat → List Byte → List (Nat × Byte)
  | _, [] => []
  | a, b :: bytes => (a, b) :: cellsFrom (a + 1) bytes

/-- The memory `init()` leaves with the font `f` (R250): `FONT` at `0x050`, 0 elsewhere. -/
def installFont (f : Font) : Memory := Memory.writeAll [] (cellsFrom Config.fontOffset f.bytes)

/-- The canonical form above address `lo`: addresses from `lo` on, strictly rising, all in `0x000..0xFFF`, no entry
that an unlisted address would read as. -/
def Memory.wfFrom : Nat → Memory → Bool
  | _, [] => true
  | lo, (a, b) :: m =>
    decide (lo ≤ a) && decide (a < Config.memSize) && decide (b ≠ Memory.resetByte a) && Memory.wfFrom (a + 1) m

/-- The canonical form of a memory. Every memory operation keeps it (Laws/Memory.lean). -/
def Memory.wf (m : Memory) : Bool := Memory.wfFrom 0 m

/-! ## Effective addresses and the range check (R45, R46, R121) -/

/-- The effective address of byte `k` of a transfer through `I` (R121): `I + k`, an unbounded integer; reduced modulo
4096 when `ADDR_WRAP_COMPAT` (R46). -/
def State.dataAddr (s : State) (k : Nat) : Nat :=
  if s.addrWrapCompat then (s.i.toNat + k) % Config.memSize else s.i.toNat + k

/-- The range check of a transfer of `n` bytes through `I` (R45): on the unreduced address of its last byte; none for
`n = 0`; never failing when `ADDR_WRAP_COMPAT` (R46). -/
def State.dataInRange (s : State) (n : Nat) : Bool :=
  s.addrWrapCompat || n == 0 || decide (s.i.toNat + n - 1 ≤ 0xFFF)

/-- `MemRead(I, n)` (R8, R45): the bytes, lowest address first, or the fault. -/
def State.readData (s : State) (n : Nat) : Except Fault (List Byte) :=
  if s.dataInRange n then .ok ((List.range n).map fun k => Memory.read s.mem (s.dataAddr k))
  else .error .outOfRangeMemoryAccess

/-- The (address, byte) pairs that a store of `bytes` through `I` writes, `k` counting on from the first. -/
def State.dataCells (s : State) : Nat → List Byte → List (Nat × Byte)
  | _, [] => []
  | k, b :: bytes => (s.dataAddr k, b) :: s.dataCells (k + 1) bytes

/-- `MemWrite(I, n, bytes)` with `n` the length of `bytes` (R8, R45): all bytes are checked before one is written. -/
def State.writeData (s : State) (bytes : List Byte) : Except Fault State :=
  if s.dataInRange bytes.length then .ok { s with mem := Memory.writeAll s.mem (s.dataCells 0 bytes) }
  else .error .outOfRangeMemoryAccess

/-! ## Fetch (R80, R81) -/

/-- The word at `pc`, high byte first (R41), for any `pc` up to `0xFFE`, odd ones too (R44); `ADDR_WRAP_COMPAT` does
not apply (R80). -/
def State.fetch (s : State) : Except Fault Word :=
  if s.pc.toNat ≤ 0xFFE then
    .ok (wordOfBytes (Memory.read s.mem s.pc.toNat) (Memory.read s.mem (s.pc.toNat + 1)))
  else .error .outOfRangeMemoryAccess

/-- `pc <- (pc + 2) mod 2^16`: the pre-increment (R81), a taken skip (R92), the end of a key wait (R184). -/
def State.advancePc (s : State) : State := { s with pc := s.pc + 2 }

/-! ## Registers -/

/-- `V[x]` (R10). -/
def State.getV (s : State) (x : Nibble) : Byte := s.v[x.toNat]'x.isLt

/-- `V[x] <- b` (R10): no register is hardwired. -/
def State.setV (s : State) (x : Nibble) (b : Byte) : State := { s with v := s.v.set x.toNat b x.isLt }

/-- `I <- w` (R12). -/
def State.setI (s : State) (w : Word) : State := { s with i := w }

/-- `pc <- w` (R13). -/
def State.setPc (s : State) (w : Word) : State := { s with pc := w }

/-- `MODE <- m` (R16). -/
def State.setMode (s : State) (m : Mode) : State := { s with mode := m }

/-- The framebuffer controller's state replaced. -/
def State.setFbc (s : State) (f : Fbc) : State := { s with fbc := f }

/-- The timer pair's state replaced. -/
def State.setTmr (s : State) (t : Tmr) : State := { s with tmr := t }

/-- `KEY[k]` (R17). -/
def State.getKey (s : State) (k : Nibble) : Bool := s.key[k.toNat]'k.isLt

/-- `FB[y][x]` (R22). -/
def Fbc.pixel (f : Fbc) (x : Fin 64) (y : Fin 32) : Bool := f.fb[y.val][x.val]

/-- One byte `r` of the random source, and the state that has drawn it (R122). -/
def State.draw (s : State) : Byte × State := (Config.rndByte s.draws, { s with draws := s.draws + 1 })

/-! ## The return stack (R14, R15) -/

/-- `STACK[SP] <- w`, then `SP <- SP + 1`; `StackOverflow` at `SP = 16` (R85, R221). -/
def State.push (s : State) (w : Word) : Except Fault State :=
  if h : s.sp.val < 16 then
    .ok { s with stack := s.stack.set s.sp.val w h, sp := ⟨s.sp.val + 1, Nat.succ_lt_succ h⟩ }
  else .error .stackOverflow

/-- `SP <- SP - 1`, then the word `STACK[SP]`; `StackUnderflow` at `SP = 0` (R83, R222). The slot keeps its value. -/
def State.pop (s : State) : Except Fault (Word × State) :=
  if s.sp.val = 0 then .error .stackUnderflow
  else .ok (s.stack[s.sp.val - 1]'(by omega), { s with sp := ⟨s.sp.val - 1, by omega⟩ })

end Sys2Proof.Machine
end

