-- ==== Sys2Proof/Machine/Operands.lean ====
section
/-! DEFINITION. The operand forms (R63, R121): how a field or a register becomes a value, an address, a digit or a
list of bytes. The register form `V[x]` is `State.getV`, the form "at `I` plus an implied offset" `State.dataAddr`. -/

namespace Sys2Proof.Machine

/-- `zext_16(nnn)` (R63). -/
def zextAddr (nnn : Addr) : Word := nnn.setWidth 16

/-- `zext_16(b)` of a register byte (R63). -/
def zextByte (b : Byte) : Word := b.setWidth 16

/-- `b & 0x0F` as a digit: the glyph of `LD F,Vx` (R124), the key of `SKP` and `SKNP` (R182). -/
def lowDigit (b : Byte) : Nibble := b.extractLsb' 0 4

/-- The decimal digits of a byte, hundreds, tens, ones (R125). -/
def bcdDigits (b : Byte) : List Byte := [b / 100, b / 10 % 10, b % 10]

/-- The address of a digit's glyph: `FONT_OFFSET + d * 5` (R124). -/
def glyphAddr (d : Nibble) : Word := BitVec.ofNat 16 (Config.fontOffset + d.toNat * 5)

/-- The number of registers `V[0]..V[x]`, the length of a bulk transfer (R121, R126). -/
def bulkLength (x : Nibble) : Nat := x.toNat + 1

/-- The bytes `V[0], .., V[x]` (R126). -/
def State.bulkBytes (s : State) (x : Nibble) : List Byte :=
  (List.range (bulkLength x)).map fun k => s.getV (BitVec.ofNat 4 k)

/-- `V[k] <- b0, V[k+1] <- b1, ..` (R127): from register `k` on, one byte each. -/
def State.setBulk (s : State) : Nat → List Byte → State
  | _, [] => s
  | k, b :: bytes => (s.setV (BitVec.ofNat 4 k) b).setBulk (k + 1) bytes

end Sys2Proof.Machine
end

