-- ==== Sys2Proof/Machine/Flags.lean ====
section
/-! DEFINITION. The flag computations (R11, R112): what `V[F]` receives, from operands read before any write, and the
order of the two writes. -/

namespace Sys2Proof.Machine

/-- A flag as a register holds it: 1 or 0 (R11). -/
def flagByte (c : Bool) : Byte := if c then 1 else 0

/-- `V[F] <- c` (R11). -/
def State.setFlag (s : State) (c : Bool) : State := s.setV 0xF (flagByte c)

/-- `V[x] <- result`, and then `V[F] <- c`: the flag is the last write, so with `x = 15` it is what stays (R112). -/
def State.setVThenFlag (s : State) (x : Nibble) (result : Byte) (c : Bool) : State :=
  (s.setV x result).setFlag c

/-- `ADD Vx,Vy`: the 9-bit sum exceeds 255 (R106). -/
def carryOut (a b : Byte) : Bool := decide (255 < a.toNat + b.toNat)

/-- `SUB Vx,Vy`, `SUBN Vx,Vy`: no borrow in `a - b` (R107, R109). Equal operands give no borrow. -/
def noBorrow (a b : Byte) : Bool := decide (b.toNat ≤ a.toNat)

/-- `SHR Vx`: the bit shifted out, bit 0 (R108). -/
def shiftedOutRight (a : Byte) : Bool := a.getLsbD 0

/-- `SHL Vx`: the bit shifted out, bit 7 (R110). -/
def shiftedOutLeft (a : Byte) : Bool := a.getLsbD 7

/-- `ADD I,Vx`: the untruncated sum exceeds `0xFFF`, with the whole of the old `I` (R123). -/
def indexOverflow (i : Word) (a : Byte) : Bool := decide (0xFFF < i.toNat + a.toNat)

end Sys2Proof.Machine
end

