-- ==== Sys2Proof/Machine/Alu.lean ====
section
/-! DEFINITION. Register load, arithmetic and logic (spec/41_alu.md): unsigned 8-bit values, wrap-around modulo 256
(R111); in the five flag-writing instructions the operands are read first and the flag is written last (R112). -/

namespace Sys2Proof.Machine

/-- `LD Vx,byte` (R100). -/
def execLdVxByte (x : Nibble) (kk : Byte) (s : State) : Result := .next (s.setV x kk)

/-- `ADD Vx,byte` (R101): no flag, `V[F]` is written only as an ordinary destination. -/
def execAddVxByte (x : Nibble) (kk : Byte) (s : State) : Result := .next (s.setV x (s.getV x + kk))

/-- `LD Vx,Vy` (R102). -/
def execLdVxVy (x y : Nibble) (s : State) : Result := .next (s.setV x (s.getV y))

/-- `OR Vx,Vy` (R103): no flag effect. -/
def execOrVxVy (x y : Nibble) (s : State) : Result := .next (s.setV x (s.getV x ||| s.getV y))

/-- `AND Vx,Vy` (R104): no flag effect. -/
def execAndVxVy (x y : Nibble) (s : State) : Result := .next (s.setV x (s.getV x &&& s.getV y))

/-- `XOR Vx,Vy` (R105): no flag effect. -/
def execXorVxVy (x y : Nibble) (s : State) : Result := .next (s.setV x (s.getV x ^^^ s.getV y))

/-- `ADD Vx,Vy` (R106): the sum modulo 256, `V[F]` the carry. -/
def execAddVxVy (x y : Nibble) (s : State) : Result :=
  .next (s.setVThenFlag x (s.getV x + s.getV y) (carryOut (s.getV x) (s.getV y)))

/-- `SUB Vx,Vy` (R107): `V[x] - V[y]` modulo 256, `V[F]` 1 when no borrow. -/
def execSubVxVy (x y : Nibble) (s : State) : Result :=
  .next (s.setVThenFlag x (s.getV x - s.getV y) (noBorrow (s.getV x) (s.getV y)))

/-- `SHR Vx` (R108): of `V[x]` itself; `V[y]` is not read. -/
def execShrVx (x : Nibble) (s : State) : Result :=
  .next (s.setVThenFlag x (s.getV x >>> 1) (shiftedOutRight (s.getV x)))

/-- `SUBN Vx,Vy` (R109): `V[y] - V[x]` modulo 256, `V[F]` 1 when no borrow. -/
def execSubnVxVy (x y : Nibble) (s : State) : Result :=
  .next (s.setVThenFlag x (s.getV y - s.getV x) (noBorrow (s.getV y) (s.getV x)))

/-- `SHL Vx` (R110): of `V[x]` itself; `V[y]` is not read. -/
def execShlVx (x : Nibble) (s : State) : Result :=
  .next (s.setVThenFlag x (s.getV x <<< 1) (shiftedOutLeft (s.getV x)))

end Sys2Proof.Machine
end

