-- ==== Sys2Proof/Machine/Control.lean ====
section
/-! DEFINITION. Control transfer and the conditional skips (spec/40_control_flow.md). In every meaning `s.pc` already
holds the address of the next instruction (R81). -/

namespace Sys2Proof.Machine

/-- `RET` (R83): `SP <- SP - 1; pc <- STACK[SP]`, or `StackUnderflow`. -/
def execRet (s : State) : Result :=
  match s.pop with
  | .ok (w, s') => .next (s'.setPc w)
  | .error f => raise f

/-- `JP addr` (R84): `pc <- zext_16(nnn)`. -/
def execJpAddr (nnn : Addr) (s : State) : Result := .next (s.setPc (zextAddr nnn))

/-- `CALL addr` (R85): `STACK[SP] <- pc; SP <- SP + 1; pc <- zext_16(nnn)`, or `StackOverflow`. -/
def execCallAddr (nnn : Addr) (s : State) : Result :=
  match s.push s.pc with
  | .ok s' => .next (s'.setPc (zextAddr nnn))
  | .error f => raise f

/-- `JP V0,addr` (R87): `pc <- zext_16(nnn) + zext_16(V[0])`, not reduced to 12 bits. -/
def execJpV0Addr (nnn : Addr) (s : State) : Result :=
  .next (s.setPc (zextAddr nnn + zextByte (s.getV 0)))

/-- The common law of the skips (R92): a further 2 on `pc` when the condition holds, nothing otherwise. -/
def skipIf (c : Bool) (s : State) : Result := .next (if c then s.advancePc else s)

/-- `SE Vx,byte` (R88). -/
def execSeVxByte (x : Nibble) (kk : Byte) (s : State) : Result := skipIf (s.getV x == kk) s

/-- `SNE Vx,byte` (R89). -/
def execSneVxByte (x : Nibble) (kk : Byte) (s : State) : Result := skipIf (s.getV x != kk) s

/-- `SE Vx,Vy` (R90). -/
def execSeVxVy (x y : Nibble) (s : State) : Result := skipIf (s.getV x == s.getV y) s

/-- `SNE Vx,Vy` (R91). -/
def execSneVxVy (x y : Nibble) (s : State) : Result := skipIf (s.getV x != s.getV y) s

/-- A word that matches no row of the opcode table (R68): a no-op, and no fault (R226). Its diagnostic record is not
state (R28; notes/assumptions/8.md). -/
def execUnrecognized (s : State) : Result := .next s

end Sys2Proof.Machine
end

