-- ==== Sys2Proof/Machine/Display.lean ====
section
/-! DEFINITION. The framebuffer controller (spec/43_display.md): its five commands (R196), functions of the
controller's state alone (R26, R153), and the two instructions that issue them. -/

namespace Sys2Proof.Machine

/-- The command `Clear` (R141): every pixel 0, `DIRTY` set even if none changed. -/
def clearScreen (_ : Fbc) : Fbc := { fb := blankGrid, dirty := true }

/-- The body of `Draw`'s loops (R144) for sprite row `i`, column `j` and sprite bit `b`, on the grid and the collision
so far: each target coordinate is reduced on its own (R147). -/
def drawPixel (vx vy : Byte) (i j : Nat) (b : Bool) (acc : Grid × Bool) : Grid × Bool :=
  let px := (vx.toNat + j) % 64
  let py := (vy.toNat + i) % 32
  have hx : px < 64 := Nat.mod_lt _ (by decide)
  have hy : py < 32 := Nat.mod_lt _ (by decide)
  let old := acc.1[py][px]
  (acc.1.set py (acc.1[py].set px (old ^^ b)), acc.2 || (b && old))

/-- Sprite bit `j` of a row byte, counted from the left: bit 7 is the leftmost (R43). -/
def spriteBit (row : Byte) (j : Nat) : Bool := row.getLsbD (7 - j)

/-- The inner loop of `Draw` (R144): the eight columns of sprite row `i`, left to right. -/
def drawRow (vx vy : Byte) (i : Nat) (row : Byte) (acc : Grid × Bool) : Grid × Bool :=
  (List.range 8).foldl (fun acc j => drawPixel vx vy i j (spriteBit row j) acc) acc

/-- The outer loop of `Draw` (R144), from sprite row `i` on, top to bottom. -/
def drawRows (vx vy : Byte) : Nat → List Byte → Grid × Bool → Grid × Bool
  | _, [], acc => acc
  | i, row :: rows, acc => drawRows vx vy (i + 1) rows (drawRow vx vy i row acc)

/-- The command `Draw` (R144): the sprite XORed into the grid, `DIRTY` set unconditionally (R150), and the collision
bit. For more than the 15 rows that R196 allows, what it does is the model's choice (DESIGN CHOICE,
notes/assumptions/19.md). -/
def drawSprite (vx vy : Byte) (rows : List Byte) (f : Fbc) : Fbc × Bool :=
  let r := drawRows vx vy 0 rows (f.fb, false)
  ({ fb := r.1, dirty := true }, r.2)

/-- The command `ReadView` (R196): all the pixels. -/
def readView (f : Fbc) : Grid := f.fb

/-- The command `TakeDirty` (R196, R205): the old flag, and the state with it cleared. -/
def takeDirty (f : Fbc) : Bool × Fbc := (f.dirty, { f with dirty := false })

/-- The command `Reset` (R196, R250). -/
def resetFbc (_ : Fbc) : Fbc := { fb := blankGrid, dirty := false }

/-- `CLS` (R142). -/
def execCls (s : State) : Result := .next (s.setFbc (clearScreen s.fbc))

/-- `DRW Vx,Vy,n` (R145): the `n` sprite bytes at `I` are read first (R143), the coordinates are `V[x]`, `V[y]` from
before `V[F]` is written, and the collision bit goes to `V[F]` last. -/
def execDrwVxVyN (x y n : Nibble) (s : State) : Result :=
  match s.readData n.toNat with
  | .ok rows =>
    let r := drawSprite (s.getV x) (s.getV y) rows s.fbc
    .next ((s.setFbc r.1).setFlag r.2)
  | .error f => raise f

end Sys2Proof.Machine
end

