-- ==== Sys2Proof/Machine/Index.lean ====
section
/-! DEFINITION. Index register, memory transfers and the random byte (spec/42_index_memory_random.md). No transfer
changes `I` (R121). -/

namespace Sys2Proof.Machine

/-- `LD I,addr` (R120). -/
def execLdIAddr (nnn : Addr) (s : State) : Result := .next (s.setI (zextAddr nnn))

/-- `RND Vx,byte` (R122): `V[x] <- r & kk` for a free byte `r`. -/
def execRndVxByte (x : Nibble) (kk : Byte) (s : State) : Result :=
  .next (s.draw.2.setV x (s.draw.1 &&& kk))

/-- `ADD I,Vx` (R123): the sum modulo `2^16`, not reduced to 12 bits; `V[F]` 1 iff the untruncated sum exceeds
`0xFFF`; no fault here whatever the sum. -/
def execAddIVx (x : Nibble) (s : State) : Result :=
  .next ((s.setI (s.i + zextByte (s.getV x))).setFlag (indexOverflow s.i (s.getV x)))

/-- `LD F,Vx` (R124): the address of the glyph of `V[x]`'s low nibble; no memory is read. -/
def execLdFVx (x : Nibble) (s : State) : Result := .next (s.setI (glyphAddr (lowDigit (s.getV x))))

/-- `LD B,Vx` (R125): the three decimal digits of `V[x]` to `I`, `I+1`, `I+2`. -/
def execLdBVx (x : Nibble) (s : State) : Result :=
  match s.writeData (bcdDigits (s.getV x)) with
  | .ok s' => .next s'
  | .error f => raise f

/-- `LD [I],Vx` (R126): `MEM[I+i] <- V[i]` for `i` in `0..x`. -/
def execLdMemVx (x : Nibble) (s : State) : Result :=
  match s.writeData (s.bulkBytes x) with
  | .ok s' => .next s'
  | .error f => raise f

/-- `LD Vx,[I]` (R127): `V[i] <- MEM[I+i]` for `i` in `0..x`. -/
def execLdVxMem (x : Nibble) (s : State) : Result :=
  match s.readData (bulkLength x) with
  | .ok bytes => .next (s.setBulk 0 bytes)
  | .error f => raise f

end Sys2Proof.Machine
end

