-- ==== Sys2Proof/Machine/Keypad.lean ====
section
/-! DEFINITION. The key tests and the key wait (spec/45_keypad.md). -/

namespace Sys2Proof.Machine

/-- `SKP Vx` (R180): the key is the low nibble of `V[x]` (R182). -/
def execSkpVx (x : Nibble) (s : State) : Result := skipIf (s.getKey (lowDigit (s.getV x))) s

/-- `SKNP Vx` (R181). -/
def execSknpVx (x : Nibble) (s : State) : Result := skipIf (!s.getKey (lowDigit (s.getV x))) s

/-- `LD Vx,K` (R183), the entering step: the wait begins, the pre-increment is cancelled, `KEY` is not looked at. -/
def execLdVxK (x : Nibble) (s : State) : Result :=
  .next ((s.setMode (.waitingForKey x)).setPc (s.pc - 2))

/-- The smallest index of a pressed key (R184), if one is pressed. -/
def State.firstKey (s : State) : Option Nibble :=
  ((List.range 16).map (BitVec.ofNat 4)).find? fun k => s.getKey k

/-- What a step does while `MODE = WaitingForKey(r)` (R184): with a key down its number goes to `V[r]`, `pc` moves past
the instruction and the engine runs on; with none down nothing changes. Nothing is fetched, and no fault can arise. -/
def keyPoll (r : Nibble) (s : State) : Result :=
  match s.firstKey with
  | some k => .next (((s.setV r (k.setWidth 8)).advancePc).setMode .running)
  | none => .next s

end Sys2Proof.Machine
end

