-- ==== Sys2Proof/Machine/Timers.lean ====
section
/-! DEFINITION. The timer pair (spec/44_timers.md): its commands (R197), functions of the pair's state alone (R26), and
the three timer instructions. No instruction counts a timer down (R170). -/

namespace Sys2Proof.Machine

/-- One counter on one tick: minus 1, floor 0 (R166). -/
def countDown (t : Byte) : Byte := if t = 0 then 0 else t - 1

/-- The command `Tick` (R166): each counter by its own test. -/
def tick (t : Tmr) : Tmr := { dt := countDown t.dt, st := countDown t.st }

/-- The command `LoadDT` (R197). -/
def loadDt (b : Byte) (t : Tmr) : Tmr := { t with dt := b }

/-- The command `LoadST` (R197). -/
def loadSt (b : Byte) (t : Tmr) : Tmr := { t with st := b }

/-- The command `ReadDT` (R197). -/
def readDt (t : Tmr) : Byte := t.dt

/-- The output `ST` (R197), visible at all times. -/
def stOutput (t : Tmr) : Byte := t.st

/-- The command `Reset` (R197, R250). -/
def resetTmr (_ : Tmr) : Tmr := { dt := 0, st := 0 }

/-- `LD Vx,DT` (R167). -/
def execLdVxDt (x : Nibble) (s : State) : Result := .next (s.setV x (readDt s.tmr))

/-- `LD DT,Vx` (R168). -/
def execLdDtVx (x : Nibble) (s : State) : Result := .next (s.setTmr (loadDt (s.getV x) s.tmr))

/-- `LD ST,Vx` (R169). -/
def execLdStVx (x : Nibble) (s : State) : Result := .next (s.setTmr (loadSt (s.getV x) s.tmr))

end Sys2Proof.Machine
end

