-- ==== Sys2Proof/Machine/Step.lean ====
section
/-! DEFINITION. One `step()` of the engine (R82, R202), and placing an instruction where it fetches. -/

namespace Sys2Proof.Machine

/-- The instruction cycle after the fetch of `w` (R81, R82): the pre-increment, decode, execute; a word that is no
instruction is a no-op (R68). -/
def runWord (w : Word) (s : State) : Host.Outcome State Fault Refusal :=
  match decodeWord w with
  | .ok i => exec i s.advancePc
  | .error (.unrecognizedOpcode _) => execUnrecognized s.advancePc

/-- The engine's `step()` (R82): the key poll while waiting for a key, one instruction cycle otherwise. -/
def step (s : State) : Host.Outcome State Fault Refusal :=
  match s.mode with
  | .waitingForKey r => keyPoll r s
  | .running =>
    match s.fetch with
    | .ok w => runWord w s
    | .error f => raise f

/-- `s` with the 16-bit instruction whose bits are `w` where the next step fetches: at `pc`, high byte first (R41). The
fetch needs `MODE = Running` and a `pc` up to `0xFFE`: where `s` has another, they are set
(notes/assumptions/7.md). -/
def State.withFetchWord (s : State) (nbits w : Nat) : State :=
  let pc := if s.pc.toNat ≤ 0xFFE then s.pc else Config.programOffset
  { s with
    pc := pc
    mode := .running
    mem := Memory.writeAll s.mem
      [(pc.toNat, highByte (tableWord nbits w)), (pc.toNat + 1, lowByte (tableWord nbits w))] }

end Sys2Proof.Machine
end

