-- ==== Sys2Proof/Machine/HostOps.lean ====
section
/-! DEFINITION. The seven operations of the host (spec/46_host_interface.md), atomic and totally ordered (R5): an
execution is a list of them (notes/assumptions/6.md). -/

namespace Sys2Proof.Machine

/-- The error of `load_program` that concerns the engine (R201, R227). -/
inductive LoadError where
  /-- Returned by `load_program` for an image of more than 3584 bytes, the state untouched. SAFE: the spec's own. -/
  | overSizedImage
  deriving DecidableEq, Repr

/-- Why a configuration is turned away. -/
inductive ConfigRefusal where
  /-- `SPRITE_CLIP = true` has no semantics in the spec (R152). SAFE: there is no machine to prove anything of. -/
  | spriteClip
  deriving DecidableEq, Repr

/-- The state `init()` creates on a machine with the given parameters (R6, R31, R250), or the refusal of R152. -/
def initWith (p : Config.Params) : Except ConfigRefusal State :=
  if p.spriteClip then .error .spriteClip
  else .ok { State.reset with mem := installFont p.font, addrWrapCompat := p.addrWrapCompat, font := p.font }

/-- An operation of the host (R200 to R206). `set_key` takes an index of 0 to 15 and no other (R204;
notes/assumptions/15.md). -/
inductive HostOp where
  | init
  | loadProgram (bytes : List Byte)
  | step
  | tickTimers
  | setKey (index : Nibble) (pressed : Bool)
  | framebuffer
  | takeDirty
  deriving DecidableEq, Repr

/-- What an operation returns to the host. -/
inductive Response where
  /-- No result, or success. -/
  | ok
  /-- The fault of a `step()` (R202). -/
  | fault (f : Fault)
  /-- A step without a meaning. No instruction gives it. -/
  | refused (r : Refusal)
  /-- The error of a `load_program` (R201). -/
  | loadError (e : LoadError)
  /-- The value of `take_dirty()` (R205). -/
  | flag (d : Bool)
  /-- The view of `framebuffer()` (R206). -/
  | view (fb : Grid)
  deriving DecidableEq, Repr

/-- `init()` (R200, R250): a fresh state. The machine's parameters stay, and the random source is not set back, so that
no two sessions are made to draw the same bytes (notes/assumptions/17.md). -/
def hostInit (s : State) : State :=
  { State.reset with
    mem := installFont s.font
    fbc := resetFbc s.fbc
    tmr := resetTmr s.tmr
    addrWrapCompat := s.addrWrapCompat
    font := s.font
    draws := s.draws }

/-- `load_program(bytes)` (R201): everything but the image's bytes is untouched, `pc` included. -/
def hostLoadProgram (bytes : List Byte) (s : State) : Except LoadError State :=
  if Config.memSize - Config.programOffset.toNat < bytes.length then .error .overSizedImage
  else .ok { s with mem := Memory.writeAll s.mem (cellsFrom Config.programOffset.toNat bytes) }

/-- `tick_timers()` (R203). -/
def hostTickTimers (s : State) : State := s.setTmr (tick s.tmr)

/-- `set_key(index, pressed)` (R204). -/
def hostSetKey (index : Nibble) (pressed : Bool) (s : State) : State :=
  { s with key := s.key.set index.toNat pressed index.isLt }

/-- `take_dirty()` (R205): the old flag, and the state with it cleared. -/
def hostTakeDirty (s : State) : Bool × State := ((takeDirty s.fbc).1, s.setFbc (takeDirty s.fbc).2)

/-- `framebuffer()` (R206): the current pixels; nothing changes. -/
def hostFramebuffer (s : State) : Grid := readView s.fbc

/-- One operation: the state after it and what the host gets. A `step()` that faults leaves the state as it was
(R224). -/
def perform (op : HostOp) (s : State) : State × Response :=
  match op with
  | .init => (hostInit s, .ok)
  | .loadProgram bytes =>
    match hostLoadProgram bytes s with
    | .ok s' => (s', .ok)
    | .error e => (s, .loadError e)
  | .step =>
    match Sys2Proof.Machine.step s with
    | .next s' => (s', .ok)
    | .fault f => (s, .fault f)
    | .refused r => (s, .refused r)
  | .tickTimers => (hostTickTimers s, .ok)
  | .setKey index pressed => (hostSetKey index pressed s, .ok)
  | .framebuffer => (s, .view (hostFramebuffer s))
  | .takeDirty => ((hostTakeDirty s).2, .flag (hostTakeDirty s).1)

/-- An execution: the host's operations one after another (R5), and what each returned. -/
def runOps : List HostOp → State → State × List Response
  | [], s => (s, [])
  | op :: ops, s => ((runOps ops (perform op s).1).1, (perform op s).2 :: (runOps ops (perform op s).1).2)

end Sys2Proof.Machine
end

