-- ==== Sys2Proof/Machine/Block.lean ====
section
/-! DEFINITION. The display-and-timer block as R195 to R198 give it: named commands, each atomic and always completing,
on the block's state `(FB, DIRTY, DT, ST)`, and which command an instruction or an operation of the host issues. -/

namespace Sys2Proof.Machine

/-- The block's state (R26): the framebuffer controller's and the timer pair's. -/
abbrev Block := Fbc × Tmr

/-- The block's part of the machine's state. -/
def State.block (s : State) : Block := (s.fbc, s.tmr)

/-- The commands of the block: five of the framebuffer controller (R196), five of the timer pair (R197). -/
inductive BlockCommand where
  | clear
  /-- R196 gives `Draw` 0 to 15 rows and no effect for more. DESIGN CHOICE, notes/assumptions/19.md: the command takes a
  list of any length and draws all of it; no instruction issues more than 15 rows. -/
  | draw (vx vy : Byte) (rows : List Byte)
  | readView
  | takeDirty
  | resetFbc
  | tick
  | loadDt (b : Byte)
  | loadSt (b : Byte)
  | readDt
  | resetTmr
  deriving DecidableEq, Repr

/-- What a command outputs (R196, R197). -/
inductive BlockReply where
  | nothing
  | bit (b : Bool)
  | byte (b : Byte)
  | pixels (g : Grid)
  deriving DecidableEq, Repr

/-- One command: the block's state after it, and its output. None can be refused and none can fault (R195). -/
def performBlock (c : BlockCommand) (b : Block) : Block × BlockReply :=
  match c with
  | .clear => ((clearScreen b.1, b.2), .nothing)
  | .draw vx vy rows => (((drawSprite vx vy rows b.1).1, b.2), .bit (drawSprite vx vy rows b.1).2)
  | .readView => (b, .pixels (Sys2Proof.Machine.readView b.1))
  | .takeDirty => (((Sys2Proof.Machine.takeDirty b.1).2, b.2), .bit (Sys2Proof.Machine.takeDirty b.1).1)
  | .resetFbc => ((Sys2Proof.Machine.resetFbc b.1, b.2), .nothing)
  | .tick => ((b.1, Sys2Proof.Machine.tick b.2), .nothing)
  | .loadDt v => ((b.1, Sys2Proof.Machine.loadDt v b.2), .nothing)
  | .loadSt v => ((b.1, Sys2Proof.Machine.loadSt v b.2), .nothing)
  | .readDt => (b, .byte (Sys2Proof.Machine.readDt b.2))
  | .resetTmr => ((b.1, Sys2Proof.Machine.resetTmr b.2), .nothing)

/-- Commands one after another (R5, R199): the block's state after them. -/
def performBlockAll (cs : List BlockCommand) (b : Block) : Block := cs.foldl (fun b c => (performBlock c b).1) b

/-- The commands an instruction issues when it completes (R198): five instructions issue one each, the others none. -/
def issuedBy (s : State) : Instr → List BlockCommand
  | .cls _ => [.clear]
  | .drwVxVyN x y n =>
    [.draw (s.getV x) (s.getV y) ((List.range n.toNat).map fun k => Memory.read s.mem (s.dataAddr k))]
  | .ldDtVx x => [.loadDt (s.getV x)]
  | .ldStVx x => [.loadSt (s.getV x)]
  | .ldVxDt _ => [.readDt]
  | .ret _ | .jpAddr _ | .callAddr _ | .jpV0Addr _ => []
  | .seVxByte _ _ | .sneVxByte _ _ | .seVxVy _ _ _ | .sneVxVy _ _ _ => []
  | .ldVxByte _ _ | .addVxByte _ _ | .ldVxVy _ _ | .orVxVy _ _ | .andVxVy _ _ | .xorVxVy _ _ => []
  | .addVxVy _ _ | .subVxVy _ _ | .shrVx _ _ | .subnVxVy _ _ | .shlVx _ _ => []
  | .ldIAddr _ | .rndVxByte _ _ | .skpVx _ | .sknpVx _ | .ldVxK _ => []
  | .addIVx _ | .ldFVx _ | .ldBVx _ | .ldMemVx _ | .ldVxMem _ => []

/-- The commands the host's operations issue themselves (R196, R197); those of a `step()` are the instruction's. -/
def issuedByHost : HostOp → List BlockCommand
  | .init => [.resetFbc, .resetTmr]
  | .tickTimers => [.tick]
  | .framebuffer => [.readView]
  | .takeDirty => [.takeDirty]
  | .loadProgram _ | .setKey _ _ | .step => []

end Sys2Proof.Machine
end

