-- ==== Sys2Proof/Safety.lean ====
section
/-! DEFINITION. The terms claims are stated in: the parts of the state and what it is for one to be unchanged, what the
spec says each instruction may write, the invariant of the machine, and a run without a fault. -/

namespace Sys2Proof.Safety

open Sys2Proof.Machine

/-! ## What is unchanged -/

/-- The parts of the state (10_state.md section 1); the last two are the model's own fields. -/
inductive Part where
  | v | i | pc | stack | mode | key | mem | fb | dirty | dt | st | param | draws
  deriving DecidableEq, Repr

/-- The part is the same in `t` as in `s`, as an observer sees it: register by register, byte by byte, pixel by
pixel. -/
def Part.same (s t : State) : Part → Prop
  | .v => ∀ r, t.getV r = s.getV r
  | .i => t.i = s.i
  | .pc => t.pc = s.pc
  | .stack => t.sp = s.sp ∧ t.stack = s.stack
  | .mode => t.mode = s.mode
  | .key => ∀ k, t.getKey k = s.getKey k
  | .mem => ∀ a, Memory.read t.mem a = Memory.read s.mem a
  | .fb => ∀ x y, t.fbc.pixel x y = s.fbc.pixel x y
  | .dirty => t.fbc.dirty = s.fbc.dirty
  | .dt => t.tmr.dt = s.tmr.dt
  | .st => t.tmr.st = s.tmr.st
  | .param => t.addrWrapCompat = s.addrWrapCompat ∧ t.font = s.font
  | .draws => t.draws = s.draws

/-- Every part but those listed is unchanged from `s` to `t`. -/
def SameExcept (changed : List Part) (s t : State) : Prop := ∀ p, p ∉ changed → p.same s t

/-- Every register but those listed is unchanged from `s` to `t`. -/
def RegsExcept (changed : List Nibble) (s t : State) : Prop := ∀ r, r ∉ changed → t.getV r = s.getV r

/-! ## What the spec says an instruction writes -/

/-- The parts an instruction writes (the column "Written by" of 10_state.md section 1; for `pc`, R13). The
pre-increment of `pc` is the step's, not the instruction's (R81). -/
def partsWritten : Instr → List Part
  | .cls _ => [.fb, .dirty]
  | .ret _ => [.pc, .stack]
  | .jpAddr _ => [.pc]
  | .callAddr _ => [.pc, .stack]
  | .seVxByte _ _ => [.pc]
  | .sneVxByte _ _ => [.pc]
  | .seVxVy _ _ _ => [.pc]
  | .ldVxByte _ _ => [.v]
  | .addVxByte _ _ => [.v]
  | .ldVxVy _ _ => [.v]
  | .orVxVy _ _ => [.v]
  | .andVxVy _ _ => [.v]
  | .xorVxVy _ _ => [.v]
  | .addVxVy _ _ => [.v]
  | .subVxVy _ _ => [.v]
  | .shrVx _ _ => [.v]
  | .subnVxVy _ _ => [.v]
  | .shlVx _ _ => [.v]
  | .sneVxVy _ _ _ => [.pc]
  | .ldIAddr _ => [.i]
  | .jpV0Addr _ => [.pc]
  | .rndVxByte _ _ => [.v, .draws]
  | .drwVxVyN _ _ _ => [.v, .fb, .dirty]
  | .skpVx _ => [.pc]
  | .sknpVx _ => [.pc]
  | .ldVxDt _ => [.v]
  | .ldVxK _ => [.pc, .mode]
  | .ldDtVx _ => [.dt]
  | .ldStVx _ => [.st]
  | .addIVx _ => [.v, .i]
  | .ldFVx _ => [.i]
  | .ldBVx _ => [.mem]
  | .ldMemVx _ => [.mem]
  | .ldVxMem _ => [.v]

/-- Whether `V[r]` is an ordinary destination of the instruction: the register its rule names, for `LD Vx,[I]` the
registers `V[0]` to `V[x]`. -/
def isDestination : Instr → Nibble → Bool
  | .ldVxByte x _, r => r == x
  | .addVxByte x _, r => r == x
  | .ldVxVy x _, r => r == x
  | .orVxVy x _, r => r == x
  | .andVxVy x _, r => r == x
  | .xorVxVy x _, r => r == x
  | .addVxVy x _, r => r == x
  | .subVxVy x _, r => r == x
  | .shrVx x _, r => r == x
  | .subnVxVy x _, r => r == x
  | .shlVx x _, r => r == x
  | .rndVxByte x _, r => r == x
  | .ldVxDt x, r => r == x
  | .ldVxMem x, r => decide (r.toNat ≤ x.toNat)
  | .cls _, _ | .ret _, _ | .jpAddr _, _ | .callAddr _, _ | .jpV0Addr _, _ => false
  | .seVxByte _ _, _ | .sneVxByte _ _, _ | .seVxVy _ _ _, _ | .sneVxVy _ _ _, _ => false
  | .ldIAddr _, _ | .drwVxVyN _ _ _, _ | .skpVx _, _ | .sknpVx _, _ | .ldVxK _, _ => false
  | .ldDtVx _, _ | .ldStVx _, _ | .addIVx _, _ | .ldFVx _, _ | .ldBVx _, _ | .ldMemVx _, _ => false

/-- The seven instructions that write `V[F]` as a flag (R11). -/
def writesFlag : Instr → Bool
  | .addVxVy _ _ | .subVxVy _ _ | .shrVx _ _ | .subnVxVy _ _ | .shlVx _ _ | .addIVx _ | .drwVxVyN _ _ _ => true
  | .cls _ | .ret _ | .jpAddr _ | .callAddr _ | .jpV0Addr _ => false
  | .seVxByte _ _ | .sneVxByte _ _ | .seVxVy _ _ _ | .sneVxVy _ _ _ => false
  | .ldVxByte _ _ | .addVxByte _ _ | .ldVxVy _ _ | .orVxVy _ _ | .andVxVy _ _ | .xorVxVy _ _ => false
  | .ldIAddr _ | .rndVxByte _ _ | .skpVx _ | .sknpVx _ | .ldVxK _ => false
  | .ldVxDt _ | .ldDtVx _ | .ldStVx _ | .ldFVx _ | .ldBVx _ | .ldMemVx _ | .ldVxMem _ => false

/-! ## The screen as a formula -/

/-- The sprite mask `S(px, py)` of R148: with `i = (py - vy) mod 32` and `j = (px - vx) mod 64`, bit `7 - j` of row
`i` if `i < n` and `j < 8`, and 0 otherwise. -/
def spriteMask (vx vy : Byte) (rows : List Byte) (px : Fin 64) (py : Fin 32) : Bool :=
  let i := (((py.val : Int) - vy.toNat) % 32).toNat
  let j := (((px.val : Int) - vx.toNat) % 64).toNat
  decide (i < rows.length) && decide (j < 8) && (rows.getD i 0).getLsbD (7 - j)

/-! ## The invariant -/

/-- While the engine waits for a key for `V[r]`, `pc` still holds the address of the `LD Vx,K` with `x = r` (R29). -/
def WaitsAtItsInstruction (s : State) : Prop :=
  ∀ r, s.mode = .waitingForKey r → ∃ w, s.fetch = .ok w ∧ decodeWord w = .ok (.ldVxK r)

/-- The invariant of the machine: the memory is in canonical form, and a key wait stands at its instruction. The other
clauses of R29 are the widths of the state's fields and hold by type. -/
def Inv (s : State) : Prop := s.mem.wf = true ∧ WaitsAtItsInstruction s

/-! ## Runs -/

/-- An execution in which no operation returned a fault: the premise of a claim about a program (R225, "a claim about
a program takes 'no fault was returned' as a premise"). -/
def FaultFree (ops : List HostOp) (s : State) : Prop := ∀ f, Response.fault f ∉ (runOps ops s).2

end Sys2Proof.Safety
end

