-- ==== Sys2Proof/Certificates/Slice0/Obligations.lean ====
section
/-! DEFINITION. The statements for the provers. `exec i s` runs in a state whose `pc` already holds the address of the
next instruction (R81). Where a statement rests on a decision of the spec or of the model, its docstring names it. -/

open Sys2Proof Sys2Proof.Machine Sys2Proof.Safety

/-! ## Encoding (spec/30_encoding.md). All numbers rest on the spec's decisions D1 and D2 (notes/assumptions/9.md) -/

/-- Decoding the word of any instruction, with every operand at every value, gives that instruction back. That an
instruction carries its row's ignored bits, and `encode` puts them into the word, is the model's choice
(notes/assumptions/10.md). -/
def Obligations.DecodeOfEncodeIsTheInstruction : Prop := ∀ i : Instr, decodeWord (encode i) = .ok i

/-- A word that decodes is the word of the instruction it decodes to: no bit is lost. That the ignored bits come back
too is the model's choice (notes/assumptions/10.md), not R66's, whose canonical encoding has them 0. -/
def Obligations.EncodeOfTheDecodedIsTheWord : Prop := ∀ (w : Word) (i : Instr), decodeWord w = .ok i → encode i = w

/-- R65: a word is an instruction iff `w & mask = match` of its row, and no word matches two rows. -/
def Obligations.WordDecodesIffItMatchesARow : Prop :=
  (∀ (w : Word) (i : Instr), decodeWord w = .ok i → w &&& (opcodeRow i).1 = (opcodeRow i).2) ∧
  (∀ (w : Word) (i : Instr), w &&& (opcodeRow i).1 = (opcodeRow i).2 →
    ∃ j, decodeWord w = .ok j ∧ opcodeRow j = opcodeRow i) ∧
  ∀ (w : Word) (i j : Instr), w &&& (opcodeRow i).1 = (opcodeRow i).2 → w &&& (opcodeRow j).1 = (opcodeRow j).2 →
    opcodeRow i = opcodeRow j

/-- R69: which words are unrecognized, and that the decoder names them so. -/
def Obligations.UnrecognizedWordsAreExactlyThese : Prop :=
  ∀ w : Word, decodeWord w = .error (.unrecognizedOpcode w) ↔
    (prefixOf w = 0x0 ∧ kkOf w ∉ ([0xE0, 0xEE] : List Byte)) ∨
    (prefixOf w = 0x8 ∧ nOf w ∈ ([0x8, 0x9, 0xA, 0xB, 0xC, 0xD, 0xF] : List Nibble)) ∨
    (prefixOf w = 0xE ∧ kkOf w ∉ ([0x9E, 0xA1] : List Byte)) ∨
    (prefixOf w = 0xF ∧ kkOf w ∉ ([0x07, 0x0A, 0x15, 0x18, 0x1E, 0x29, 0x33, 0x55, 0x65] : List Byte))

/-- R66: each value of the ignored bits selects the same instruction with the same effect, and the canonical form has
them 0. -/
def Obligations.IgnoredBitsSelectTheSameInstruction : Prop :=
  (∀ (g : Nibble) (s : State), runWord (packXK 0x0 g 0xE0) s = runWord 0x00E0 s) ∧
  (∀ (g : Nibble) (s : State), runWord (packXK 0x0 g 0xEE) s = runWord 0x00EE s) ∧
  (∀ (x y g : Nibble) (s : State), runWord (packXYN 0x5 x y g) s = runWord (packXYN 0x5 x y 0) s) ∧
  (∀ (x y g : Nibble) (s : State), runWord (packXYN 0x9 x y g) s = runWord (packXYN 0x9 x y 0) s) ∧
  (∀ (x g : Nibble) (s : State), runWord (packXYN 0x8 x g 0x6) s = runWord (packXYN 0x8 x 0 0x6) s) ∧
  (∀ (x g : Nibble) (s : State), runWord (packXYN 0x8 x g 0xE) s = runWord (packXYN 0x8 x 0 0xE) s) ∧
  ∀ i : Instr, i.canonical.wellFormed = true ∧ (i.wellFormed = true ↔ i.canonical = i)

/-- Words written out from the spec's examples (R83 to R183), one of each family, decode to the instruction they stand
for. -/
def Obligations.WrittenOutWordsDecode : Prop :=
  decodeWord 0b0000000011100000 = .ok (.cls 0) ∧
  decodeWord 0b0010001100000000 = .ok (.callAddr 0x300) ∧
  decodeWord 0b0011101000000111 = .ok (.seVxByte 0xA 0x07) ∧
  decodeWord 0b1000000100100100 = .ok (.addVxVy 1 2) ∧
  decodeWord 0b1010001000101010 = .ok (.ldIAddr 0x22A) ∧
  decodeWord 0b1101000100100101 = .ok (.drwVxVyN 1 2 5) ∧
  decodeWord 0b1111001100000111 = .ok (.ldVxDt 3) ∧
  decodeWord 0b1111010100001010 = .ok (.ldVxK 5)

/-! ## The step cycle -/

/-- R80, R41 (D6): with `pc` up to `0xFFE`, odd or even, the fetch is the big-endian word at `pc`, whatever
`ADDR_WRAP_COMPAT`; above, the step faults. -/
def Obligations.FetchIsBigEndianAndChecked : Prop :=
  (∀ s : State, s.pc.toNat ≤ 0xFFE → ∃ w, s.fetch = .ok w ∧
    w.toNat = (Memory.read s.mem s.pc.toNat).toNat * 256 + (Memory.read s.mem (s.pc.toNat + 1)).toNat) ∧
  ∀ s : State, s.mode = .running → 0xFFE < s.pc.toNat → step s = .fault .outOfRangeMemoryAccess

/-- R81, R82: a running step whose two bytes at `pc` decode to `i` is `exec i` after the pre-increment. -/
def Obligations.StepExecutesTheDecodedInstruction : Prop :=
  ∀ (s : State) (i : Instr), s.mode = .running → s.pc.toNat ≤ 0xFFE →
    decodeBytes (Memory.read s.mem s.pc.toNat) (Memory.read s.mem (s.pc.toNat + 1)) = .ok i →
    step s = exec i (s.setPc (s.pc + 2))

/-- R226: an unrecognized word does not stop the step, and changes nothing beyond the increment of `pc`. -/
def Obligations.UnrecognizedWordOnlyAdvancesPc : Prop :=
  ∀ (s : State) (w : Word) (e : DecodeError), s.mode = .running → s.fetch = .ok w → decodeWord w = .error e →
    ∃ t, step s = .next t ∧ t.pc = s.pc + 2 ∧ SameExcept [.pc] s t

/-- R184, R185 (D13): while the engine waits for a key for `V[r]`, a step with no key down changes nothing; with keys
down it writes the smallest pressed index into `V[r]`, moves `pc` by 2 and runs on. -/
def Obligations.WaitingStepPollsTheKeypad : Prop :=
  ∀ (s : State) (r : Nibble), s.mode = .waitingForKey r →
    ((∀ k : Nibble, s.getKey k = false) → step s = .next s) ∧
    ∀ k : Nibble, s.getKey k = true → (∀ j : Nibble, j.toNat < k.toNat → s.getKey j = false) →
      ∃ t, step s = .next t ∧ (t.getV r).toNat = k.toNat ∧ RegsExcept [r] s t ∧ t.pc = s.pc + 2 ∧
        t.mode = .running ∧ SameExcept [.v, .pc, .mode] s t

/-- R186: a wait during which no key is pressed goes on for any number of steps, and is no fault. -/
def Obligations.WaitWithoutAKeyGoesOn : Prop :=
  ∀ (n : Nat) (s : State) (r : Nibble), s.mode = .waitingForKey r → (∀ k : Nibble, s.getKey k = false) →
    FaultFree (List.replicate n .step) s ∧ (runOps (List.replicate n .step) s).1 = s

/-- No state stops a step for want of a meaning. -/
def Obligations.NoStepIsRefused : Prop := ∀ (s : State) (r : Refusal), step s ≠ .refused r

/-! ## Faults (spec/60_exceptions.md) -/

/-- R221, R222, R223: when a step faults and with which fault, and that no other instruction pushes or pops. The fault
of a fetch above `0xFFE` rests on the spec's decision D6 (notes/assumptions/18.md), that no access through `I` faults
with `ADDR_WRAP_COMPAT` on its decision D8 (notes/assumptions/2.md). -/
def Obligations.StepFaultsExactlyThen : Prop :=
  (∀ (s : State) (f : Fault), step s = .fault f ↔ s.mode = .running ∧
    ((f = .outOfRangeMemoryAccess ∧ 0xFFE < s.pc.toNat) ∨
     ∃ w i, s.fetch = .ok w ∧ decodeWord w = .ok i ∧
      ((f = .stackOverflow ∧ (∃ nnn, i = .callAddr nnn) ∧ s.sp.val = 16) ∨
       (f = .stackUnderflow ∧ (∃ g, i = .ret g) ∧ s.sp.val = 0) ∨
       (f = .outOfRangeMemoryAccess ∧ s.addrWrapCompat = false ∧
        ((∃ x y n, i = .drwVxVyN x y n ∧ 1 ≤ n.toNat ∧ 0xFFF < s.i.toNat + n.toNat - 1) ∨
         (∃ x, i = .ldBVx x ∧ 0xFFF < s.i.toNat + 2) ∨
         ∃ x, (i = .ldMemVx x ∨ i = .ldVxMem x) ∧ 0xFFF < s.i.toNat + x.toNat))))) ∧
  ∀ (i : Instr) (s t : State), exec i s = .next t →
    (s.sp.val < t.sp.val → ∃ nnn, i = .callAddr nnn) ∧ (t.sp.val < s.sp.val → ∃ g, i = .ret g)

/-- R224, R225 (D5, D16): a faulting step leaves the state as it was, and the same fault is raised again whatever became
of the keys, the timers, the screen and the random source in between. -/
def Obligations.FaultLeavesTheStateAndRepeats : Prop :=
  ∀ (s : State) (f : Fault), step s = .fault f →
    perform .step s = (s, .fault f) ∧
    ∀ (key : Vector Bool 16) (tmr : Tmr) (fbc : Fbc) (draws : Nat),
      step { s with key := key, tmr := tmr, fbc := fbc, draws := draws } = .fault f

/-! ## Control transfer and skips (spec/40_control_flow.md) -/

/-- R83: `RET` pops the stack into `pc`; the popped slot keeps its value; on an empty stack it faults. -/
def Obligations.RetPopsTheStackIntoPc : Prop :=
  ∀ (g : Nibble) (s : State),
    (s.sp.val ≠ 0 → ∃ t, exec (.ret g) s = .next t ∧ t.sp.val + 1 = s.sp.val ∧ t.stack = s.stack ∧
      s.stack[t.sp.val]? = some t.pc ∧ SameExcept [.pc, .stack] s t) ∧
    (s.sp.val = 0 → exec (.ret g) s = .fault .stackUnderflow)

/-- R84, R87 (D6): `JP addr` and `JP V0,addr` assign `pc`, the sum not reduced to 12 bits. -/
def Obligations.JumpsAssignPc : Prop :=
  ∀ (nnn : Addr) (s : State),
    (∃ t, exec (.jpAddr nnn) s = .next t ∧ t.pc.toNat = nnn.toNat ∧ SameExcept [.pc] s t) ∧
    ∃ t, exec (.jpV0Addr nnn) s = .next t ∧ t.pc.toNat = nnn.toNat + (s.getV 0).toNat ∧ SameExcept [.pc] s t

/-- R85: `CALL` stores the address of the next instruction in slot `SP` alone, and then jumps; on a full stack it
faults. -/
def Obligations.CallPushesTheNextAddress : Prop :=
  ∀ (nnn : Addr) (s : State),
    (s.sp.val < 16 → ∃ t, exec (.callAddr nnn) s = .next t ∧ t.sp.val = s.sp.val + 1 ∧
      (∀ k : Nat, k < 16 → t.stack[k]? = if k = s.sp.val then some s.pc else s.stack[k]?) ∧
      t.pc.toNat = nnn.toNat ∧ SameExcept [.pc, .stack] s t) ∧
    (s.sp.val = 16 → exec (.callAddr nnn) s = .fault .stackOverflow)

/-- R83, R85: a `RET` after a `CALL` comes back to the instruction after the `CALL` with the old depth, whatever the
subroutine did to everything but the stack. -/
def Obligations.RetAfterCallComesBack : Prop :=
  ∀ (nnn : Addr) (g : Nibble) (s t u : State), s.sp.val < 16 → exec (.callAddr nnn) s = .next t →
    SameExcept [.v, .i, .pc, .mem, .fb, .dirty, .dt, .st, .key, .mode, .draws] t u →
    ∃ z, exec (.ret g) u = .next z ∧ z.pc = s.pc ∧ z.sp = s.sp

/-- R88, R89, R92: the skips against an immediate. `SE` tests equality and `SNE` inequality by the meaning of the
mnemonics (91_not_in_source.md N22). -/
def Obligations.ImmediateSkips : Prop :=
  ∀ (x : Nibble) (kk : Byte) (s : State),
    (∃ t, exec (.seVxByte x kk) s = .next t ∧ t.pc = (if s.getV x = kk then s.pc + 2 else s.pc) ∧
      SameExcept [.pc] s t) ∧
    ∃ t, exec (.sneVxByte x kk) s = .next t ∧ t.pc = (if s.getV x = kk then s.pc else s.pc + 2) ∧
      SameExcept [.pc] s t

/-- R90, R91, R92: the skips between registers, for every value of the ignored bits (N22). -/
def Obligations.RegisterSkips : Prop :=
  ∀ (x y g : Nibble) (s : State),
    (∃ t, exec (.seVxVy x y g) s = .next t ∧ t.pc = (if s.getV x = s.getV y then s.pc + 2 else s.pc) ∧
      SameExcept [.pc] s t) ∧
    ∃ t, exec (.sneVxVy x y g) s = .next t ∧ t.pc = (if s.getV x = s.getV y then s.pc else s.pc + 2) ∧
      SameExcept [.pc] s t

/-- R180, R181, R182: the skips on a key; the key is the low nibble of `V[x]` (the spec's decision D12). -/
def Obligations.KeySkips : Prop :=
  ∀ x s (k : Nibble), k.toNat = (s.getV x).toNat % 16 →
    (∃ t, exec (.skpVx x) s = .next t ∧ t.pc = (if s.getKey k = true then s.pc + 2 else s.pc) ∧
      SameExcept [.pc] s t) ∧
    ∃ t, exec (.sknpVx x) s = .next t ∧ t.pc = (if s.getKey k = true then s.pc else s.pc + 2) ∧
      SameExcept [.pc] s t

/-! ## Register load, arithmetic and logic (spec/41_alu.md) -/

/-- R100, R102: `LD Vx,byte` and `LD Vx,Vy` copy into `V[x]`, `V[F]` an ordinary destination. The meaning of
`LD Vx,byte` is the mnemonic's (91_not_in_source.md N22; notes/assumptions/18.md). -/
def Obligations.LoadsCopyIntoVx : Prop :=
  ∀ (x y : Nibble) (kk : Byte) (s : State),
    (∃ t, exec (.ldVxByte x kk) s = .next t ∧ t.getV x = kk ∧ RegsExcept [x] s t ∧ SameExcept [.v] s t) ∧
    ∃ t, exec (.ldVxVy x y) s = .next t ∧ t.getV x = s.getV y ∧ RegsExcept [x] s t ∧ SameExcept [.v] s t

/-- R101: `ADD Vx,byte` wraps modulo 256 and writes no flag. That it adds `kk` is the meaning of the mnemonic
(91_not_in_source.md N22; notes/assumptions/18.md). -/
def Obligations.AddImmediateWrapsWithoutFlag : Prop :=
  ∀ (x : Nibble) (kk : Byte) (s : State), ∃ t, exec (.addVxByte x kk) s = .next t ∧
    (t.getV x).toNat = ((s.getV x).toNat + kk.toNat) % 256 ∧ RegsExcept [x] s t ∧ SameExcept [.v] s t

/-- R103, R104, R105: the logic operations bit by bit, with no flag effect. -/
def Obligations.LogicIsBitwiseWithoutFlag : Prop :=
  ∀ (x y : Nibble) (s : State),
    (∃ t, exec (.orVxVy x y) s = .next t ∧
      (∀ b < 8, (t.getV x).getLsbD b = ((s.getV x).getLsbD b || (s.getV y).getLsbD b)) ∧
      RegsExcept [x] s t ∧ SameExcept [.v] s t) ∧
    (∃ t, exec (.andVxVy x y) s = .next t ∧
      (∀ b < 8, (t.getV x).getLsbD b = ((s.getV x).getLsbD b && (s.getV y).getLsbD b)) ∧
      RegsExcept [x] s t ∧ SameExcept [.v] s t) ∧
    ∃ t, exec (.xorVxVy x y) s = .next t ∧
      (∀ b < 8, (t.getV x).getLsbD b = ((s.getV x).getLsbD b ^^ (s.getV y).getLsbD b)) ∧
      RegsExcept [x] s t ∧ SameExcept [.v] s t

/-- R106: `ADD Vx,Vy` gives the sum modulo 256 and in `V[F]` the carry, which is what stays when `x = 15`. -/
def Obligations.AddRegistersWithCarry : Prop :=
  ∀ (x y : Nibble) (s : State), ∃ t, exec (.addVxVy x y) s = .next t ∧
    (x ≠ 0xF → (t.getV x).toNat = ((s.getV x).toNat + (s.getV y).toNat) % 256) ∧
    t.getV 0xF = (if 255 < (s.getV x).toNat + (s.getV y).toNat then 1 else 0) ∧
    RegsExcept [x, 0xF] s t ∧ SameExcept [.v] s t

/-- R107, R109: `SUB` is `V[x] - V[y]` and `SUBN` is `V[y] - V[x]`, both modulo 256, `V[F]` 1 when no borrow. -/
def Obligations.SubtractWithNoBorrowFlag : Prop :=
  ∀ (x y : Nibble) (s : State),
    (∃ t, exec (.subVxVy x y) s = .next t ∧
      (x ≠ 0xF → ((t.getV x).toNat : Int) = (((s.getV x).toNat : Int) - (s.getV y).toNat) % 256) ∧
      t.getV 0xF = (if (s.getV y).toNat ≤ (s.getV x).toNat then 1 else 0) ∧
      RegsExcept [x, 0xF] s t ∧ SameExcept [.v] s t) ∧
    ∃ t, exec (.subnVxVy x y) s = .next t ∧
      (x ≠ 0xF → ((t.getV x).toNat : Int) = (((s.getV y).toNat : Int) - (s.getV x).toNat) % 256) ∧
      t.getV 0xF = (if (s.getV x).toNat ≤ (s.getV y).toNat then 1 else 0) ∧
      RegsExcept [x, 0xF] s t ∧ SameExcept [.v] s t

/-- R108, R110: the shifts by one of `V[x]` itself, `V[F]` the bit shifted out, for every value of the ignored bits. -/
def Obligations.ShiftByOneIntoFlag : Prop :=
  ∀ (x g : Nibble) (s : State),
    (∃ t, exec (.shrVx x g) s = .next t ∧
      (x ≠ 0xF → (t.getV x).toNat = (s.getV x).toNat / 2) ∧ (t.getV 0xF).toNat = (s.getV x).toNat % 2 ∧
      RegsExcept [x, 0xF] s t ∧ SameExcept [.v] s t) ∧
    ∃ t, exec (.shlVx x g) s = .next t ∧
      (x ≠ 0xF → (t.getV x).toNat = 2 * (s.getV x).toNat % 256) ∧ (t.getV 0xF).toNat = (s.getV x).toNat / 128 ∧
      RegsExcept [x, 0xF] s t ∧ SameExcept [.v] s t

/-- R112: in the five flag-writing instructions of 41_alu.md, operands are read first, result and flag are computed from
them, the result is written to `V[x]`, and the flag to `V[F]` last. -/
def Obligations.FlagIsWrittenLast : Prop :=
  ∀ (x y g : Nibble) (s : State),
    let a := (s.getV x).toNat
    let b := (s.getV y).toNat
    let put := fun (result flag : Nat) =>
      (s.setV x (BitVec.ofNat 8 result)).setV 0xF (BitVec.ofNat 8 flag)
    exec (.addVxVy x y) s = .next (put ((a + b) % 256) (if a + b > 255 then 1 else 0)) ∧
    exec (.subVxVy x y) s = .next (put ((a + 256 - b) % 256) (if a ≥ b then 1 else 0)) ∧
    exec (.subnVxVy x y) s = .next (put ((b + 256 - a) % 256) (if b ≥ a then 1 else 0)) ∧
    exec (.shrVx x g) s = .next (put (a / 2) (a % 2)) ∧
    exec (.shlVx x g) s = .next (put (2 * a % 256) (a / 128))

/-! ## Index register, memory transfers and random (spec/42_index_memory_random.md) -/

/-- R120, R124: `LD I,addr` loads the address, `LD F,Vx` the address of the glyph of `V[x]`'s low nibble; neither reads
memory. The meaning of `LD I,addr` is the mnemonic's (N22). -/
def Obligations.IndexLoads : Prop :=
  ∀ (nnn : Addr) (x : Nibble) (s : State),
    (∃ t, exec (.ldIAddr nnn) s = .next t ∧ t.i.toNat = nnn.toNat ∧ SameExcept [.i] s t) ∧
    ∃ t, exec (.ldFVx x) s = .next t ∧ t.i.toNat = 0x050 + (s.getV x).toNat % 16 * 5 ∧ SameExcept [.i] s t

/-- R122 (D19): `RND` leaves in `V[x]` some byte masked by `kk`, whichever byte was drawn (a free value,
notes/assumptions/1.md). -/
def Obligations.RandomByteIsMasked : Prop :=
  ∀ (x : Nibble) (kk : Byte) (s : State),
    ∃ t r, exec (.rndVxByte x kk) s = .next t ∧ t.getV x = r &&& kk ∧ t.getV x &&& ~~~kk = 0 ∧
      RegsExcept [x] s t ∧ SameExcept [.v, .draws] s t

/-- R123 (D7): `ADD I,Vx` adds modulo `2^16`, not modulo `2^12`; `V[F]` says whether the untruncated sum exceeds
`0xFFF`; nothing faults. -/
def Obligations.AddToIndexFlagsOverflow : Prop :=
  ∀ (x : Nibble) (s : State), ∃ t, exec (.addIVx x) s = .next t ∧
    t.i.toNat = (s.i.toNat + (s.getV x).toNat) % 65536 ∧
    t.getV 0xF = (if 0xFFF < s.i.toNat + (s.getV x).toNat then 1 else 0) ∧
    RegsExcept [0xF] s t ∧ SameExcept [.v, .i] s t

/-- R125: `LD B,Vx` stores the decimal digits at `I`, `I+1`, `I+2` and nowhere else; out of range it faults. With
`ADDR_WRAP_COMPAT` the addresses are those of R46 (D8). -/
def Obligations.StoreBcdDigits : Prop :=
  ∀ (x : Nibble) (s : State), s.mem.wf = true →
    ((s.addrWrapCompat = true ∨ s.i.toNat + 2 ≤ 0xFFF) → ∃ t, exec (.ldBVx x) s = .next t ∧
      (Memory.read t.mem (s.dataAddr 0)).toNat = (s.getV x).toNat / 100 ∧
      (Memory.read t.mem (s.dataAddr 1)).toNat = (s.getV x).toNat / 10 % 10 ∧
      (Memory.read t.mem (s.dataAddr 2)).toNat = (s.getV x).toNat % 10 ∧
      (∀ a : Nat, (∀ k < 3, a ≠ s.dataAddr k) → Memory.read t.mem a = Memory.read s.mem a) ∧
      SameExcept [.mem] s t) ∧
    (s.addrWrapCompat = false → 0xFFF < s.i.toNat + 2 → exec (.ldBVx x) s = .fault .outOfRangeMemoryAccess)

/-- R126 (D5): `LD [I],Vx` stores `V[0]` to `V[x]` from `I` on and nothing else; out of range it faults. With
`ADDR_WRAP_COMPAT` the addresses are those of R46 (D8). -/
def Obligations.StoreRegisters : Prop :=
  ∀ (x : Nibble) (s : State), s.mem.wf = true →
    ((s.addrWrapCompat = true ∨ s.i.toNat + x.toNat ≤ 0xFFF) → ∃ t, exec (.ldMemVx x) s = .next t ∧
      (∀ r : Nibble, r.toNat ≤ x.toNat → Memory.read t.mem (s.dataAddr r.toNat) = s.getV r) ∧
      (∀ a : Nat, (∀ k ≤ x.toNat, a ≠ s.dataAddr k) → Memory.read t.mem a = Memory.read s.mem a) ∧
      SameExcept [.mem] s t) ∧
    (s.addrWrapCompat = false → 0xFFF < s.i.toNat + x.toNat →
      exec (.ldMemVx x) s = .fault .outOfRangeMemoryAccess)

/-- R127 (D5): `LD Vx,[I]` loads `V[0]` to `V[x]` from `I` on and no other register; out of range it faults. With
`ADDR_WRAP_COMPAT` the addresses are those of R46 (D8). -/
def Obligations.LoadRegisters : Prop :=
  ∀ (x : Nibble) (s : State),
    ((s.addrWrapCompat = true ∨ s.i.toNat + x.toNat ≤ 0xFFF) → ∃ t, exec (.ldVxMem x) s = .next t ∧
      (∀ r : Nibble, t.getV r =
        if r.toNat ≤ x.toNat then Memory.read s.mem (s.dataAddr r.toNat) else s.getV r) ∧ SameExcept [.v] s t) ∧
    (s.addrWrapCompat = false → 0xFFF < s.i.toNat + x.toNat →
      exec (.ldVxMem x) s = .fault .outOfRangeMemoryAccess)

/-- R126, R127, R121: registers stored and then loaded, from an `I` that neither changed, come back, whatever the
program did in between to everything but `I` and the memory. -/
def Obligations.LoadAfterStoreRestoresRegisters : Prop :=
  ∀ (x : Nibble) (s t u : State), s.mem.wf = true → exec (.ldMemVx x) s = .next t →
    SameExcept [.v, .pc, .stack, .mode, .key, .fb, .dirty, .dt, .st, .draws] t u →
    ∃ z, exec (.ldVxMem x) u = .next z ∧
      ∀ r : Nibble, z.getV r = if r.toNat ≤ x.toNat then s.getV r else u.getV r

/-- R45, R46, R121 (D8): the address of byte `k` of a transfer is `I + k`; with `ADDR_WRAP_COMPAT` it is
`(I + k) mod 4096`, none of the four instructions that transfer through `I` faults, and the fetch still does. -/
def Obligations.WrapCompatNeverFaultsOnData : Prop :=
  (∀ (s : State) (k : Nat), s.addrWrapCompat = false → s.dataAddr k = s.i.toNat + k) ∧
  ∀ s : State, s.addrWrapCompat = true →
    (∀ k : Nat, s.dataAddr k = (s.i.toNat + k) % 4096) ∧
    (∀ x y n : Nibble, ∃ t, exec (.drwVxVyN x y n) s = .next t) ∧
    (∀ x : Nibble, ∃ t, exec (.ldBVx x) s = .next t) ∧ (∀ x : Nibble, ∃ t, exec (.ldMemVx x) s = .next t) ∧
    (∀ x : Nibble, ∃ t, exec (.ldVxMem x) s = .next t) ∧
    (s.mode = .running → 0xFFE < s.pc.toNat → step s = .fault .outOfRangeMemoryAccess)

/-! ## The framebuffer controller (spec/43_display.md) -/

/-- R141: `Clear` sets every pixel to 0 and `DIRTY` to 1, even on a blank screen, and touches nothing else; `CLS`
issues it (R142), for every value of the ignored bits. -/
def Obligations.ClearBlanksTheScreen : Prop :=
  (∀ f : Fbc, (∀ (x : Fin 64) (y : Fin 32), (clearScreen f).pixel x y = false) ∧ (clearScreen f).dirty = true) ∧
  ∀ (g : Nibble) (s : State), ∃ t, exec (.cls g) s = .next t ∧
    (∀ (x : Fin 64) (y : Fin 32), t.fbc.pixel x y = false) ∧ t.fbc.dirty = true ∧
    SameExcept [.fb, .dirty] s t

/-- R143, R145: `DRW` draws the `n` bytes at `I` at the old `V[x]`, `V[y]`, sets `DIRTY`, and leaves the collision bit
in `V[F]`; out of range it faults and draws nothing. With `ADDR_WRAP_COMPAT` the addresses are those of R46 (D8). -/
def Obligations.DrawInstructionDrawsTheSprite : Prop :=
  ∀ (x y n : Nibble) (s : State),
    let rows := (List.range n.toNat).map fun k => Memory.read s.mem (s.dataAddr k)
    let drawn := drawSprite (s.getV x) (s.getV y) rows s.fbc
    ((s.addrWrapCompat = true ∨ n.toNat = 0 ∨ s.i.toNat + n.toNat - 1 ≤ 0xFFF) →
      ∃ t, exec (.drwVxVyN x y n) s = .next t ∧
        (∀ (px : Fin 64) (py : Fin 32), t.fbc.pixel px py = drawn.1.pixel px py) ∧
        t.fbc.dirty = true ∧ t.getV 0xF = (if drawn.2 = true then 1 else 0) ∧ RegsExcept [0xF] s t ∧
        SameExcept [.v, .fb, .dirty] s t) ∧
    (s.addrWrapCompat = false → 1 ≤ n.toNat → 0xFFF < s.i.toNat + n.toNat - 1 →
      exec (.drwVxVyN x y n) s = .fault .outOfRangeMemoryAccess)

/-- R151: `DRW` with `n = 0` reads no memory whatever `I` holds, changes no pixel, writes `V[F] = 0` and `DIRTY = 1`. -/
def Obligations.DrawOfNoRows : Prop :=
  ∀ (x y : Nibble) (s : State), ∃ t, exec (.drwVxVyN x y 0) s = .next t ∧
    t.getV 0xF = 0 ∧ t.fbc.dirty = true ∧ RegsExcept [0xF] s t ∧
    SameExcept [.v, .dirty] s t

/-- R148 (with R144, R147): the loops of `Draw` have the closed form of R148, and its target pixels are pairwise
distinct. The bit order of a sprite row is the spec's decision D3 (R43; notes/assumptions/18.md). -/
def Obligations.DrawHasTheClosedForm : Prop :=
  (∀ (vx vy : Byte) (rows : List Byte) (f : Fbc), rows.length ≤ 15 →
    (∀ (px : Fin 64) (py : Fin 32),
      (drawSprite vx vy rows f).1.pixel px py = (f.pixel px py ^^ spriteMask vx vy rows px py)) ∧
    ((drawSprite vx vy rows f).2 = true ↔ ∃ px py, f.pixel px py = true ∧ spriteMask vx vy rows px py = true)) ∧
  ∀ vx vy : Byte, ∀ i i' j j' : Nat, i < 15 → i' < 15 → j < 8 → j' < 8 →
    (vx.toNat + j) % 64 = (vx.toNat + j') % 64 → (vy.toNat + i) % 32 = (vy.toNat + i') % 32 → i = i' ∧ j = j'

/-- R146: `Draw` returns 1 iff some pixel that was 1 is 0 after it; a pixel counts exactly when it was 1 and the
sprite bit on it is 1; each `DRW` computes the bit afresh and overwrites `V[F]` with it. Which sprite bit lies on
which pixel is R144's, with the bit order of R43, the spec's decision D3 (notes/assumptions/18.md). -/
def Obligations.CollisionIsAPixelTurnedOff : Prop :=
  (∀ (vx vy : Byte) (rows : List Byte) (f : Fbc), rows.length ≤ 15 →
    ((drawSprite vx vy rows f).2 = true ↔
      ∃ px py, f.pixel px py = true ∧ (drawSprite vx vy rows f).1.pixel px py = false) ∧
    ((drawSprite vx vy rows f).2 = true ↔
      ∃ i, ∃ hi : i < rows.length, ∃ j < 8, (rows[i]).getLsbD (7 - j) = true ∧
        f.pixel ⟨(vx.toNat + j) % 64, Nat.mod_lt _ (by decide)⟩ ⟨(vy.toNat + i) % 32, Nat.mod_lt _ (by decide)⟩ =
          true)) ∧
  ∀ (x y n : Nibble) (s t : State), exec (.drwVxVyN x y n) s = .next t →
    (t.getV 0xF = 0 ∨ t.getV 0xF = 1) ∧
    (t.getV 0xF = 1 ↔ ∃ px py, s.fbc.pixel px py = true ∧ t.fbc.pixel px py = false)

/-- R149: drawing twice restores the screen, and the second draw collides iff the first turned a pixel on; on a blank
screen nothing collides and the screen is the mask; a sprite of zero rows changes nothing but `DIRTY`; draws commute;
the start coordinates count modulo the screen. The bit order of the mask is the spec's decision D3 (R43;
notes/assumptions/18.md). -/
def Obligations.LawsOfDraw : Prop :=
  ∀ (vx vy : Byte) (rows : List Byte) (f : Fbc), rows.length ≤ 15 →
    let d := drawSprite vx vy rows f
    let dd := drawSprite vx vy rows d.1
    (∀ (px : Fin 64) (py : Fin 32), dd.1.pixel px py = f.pixel px py) ∧
    (dd.2 = true ↔ ∃ px py, f.pixel px py = false ∧ d.1.pixel px py = true) ∧
    ((∀ (px : Fin 64) (py : Fin 32), f.pixel px py = false) →
      d.2 = false ∧ ∀ (px : Fin 64) (py : Fin 32), d.1.pixel px py = spriteMask vx vy rows px py) ∧
    ((∀ b ∈ rows, b = 0) →
      d.2 = false ∧ d.1.dirty = true ∧ ∀ (px : Fin 64) (py : Fin 32), d.1.pixel px py = f.pixel px py) ∧
    (∀ (vx' vy' : Byte) (rows' : List Byte), rows'.length ≤ 15 → ∀ (px : Fin 64) (py : Fin 32),
      (drawSprite vx' vy' rows' d.1).1.pixel px py =
        (drawSprite vx vy rows (drawSprite vx' vy' rows' f).1).1.pixel px py) ∧
    drawSprite (BitVec.ofNat 8 (vx.toNat % 64)) (BitVec.ofNat 8 (vy.toNat % 32)) rows f = d

/-- R150: every completed `CLS` and `DRW` sets `DIRTY`; nothing in the engine clears it, no other step sets it, and
until the host's `take_dirty()` (or a new `init()`) it stays 1. -/
def Obligations.DirtyStaysUntilTaken : Prop :=
  (∀ (g : Nibble) (s t : State), exec (.cls g) s = .next t → t.fbc.dirty = true) ∧
  (∀ (x y n : Nibble) (s t : State), exec (.drwVxVyN x y n) s = .next t → t.fbc.dirty = true) ∧
  (∀ s t : State, step s = .next t → s.fbc.dirty = true → t.fbc.dirty = true) ∧
  (∀ s t : State, step s = .next t → s.fbc.dirty = false → t.fbc.dirty = true →
    ∃ w i, s.fetch = .ok w ∧ decodeWord w = .ok i ∧ ((∃ g, i = .cls g) ∨ ∃ x y n, i = .drwVxVyN x y n)) ∧
  ∀ (op : HostOp) (s : State), op ≠ .takeDirty → op ≠ .init → s.fbc.dirty = true →
    (perform op s).1.fbc.dirty = true

/-! ## The timer pair (spec/44_timers.md) -/

/-- R167, R168, R169: the timer instructions move one byte, with no flag effect. -/
def Obligations.TimerInstructionsMoveAByte : Prop :=
  ∀ (x : Nibble) (s : State),
    (∃ t, exec (.ldVxDt x) s = .next t ∧ t.getV x = s.tmr.dt ∧ RegsExcept [x] s t ∧ SameExcept [.v] s t) ∧
    (∃ t, exec (.ldDtVx x) s = .next t ∧ t.tmr.dt = s.getV x ∧ SameExcept [.dt] s t) ∧
    ∃ t, exec (.ldStVx x) s = .next t ∧ t.tmr.st = s.getV x ∧ SameExcept [.st] s t

/-- R166 (and R203): `tick_timers()` takes 1 off each counter by its own test, floor 0, touches nothing else and returns
nothing, in either mode. -/
def Obligations.TickCountsBothDown : Prop :=
  ∀ s : State, ∃ t, perform .tickTimers s = (t, .ok) ∧
    (t.tmr.dt.toNat = if 0 < s.tmr.dt.toNat then s.tmr.dt.toNat - 1 else 0) ∧
    (t.tmr.st.toNat = if 0 < s.tmr.st.toNat then s.tmr.st.toNat - 1 else 0) ∧ SameExcept [.dt, .st] s t

/-- R172: after `k` ticks and no load, a counter at `v` holds `max(v - k, 0)`. -/
def Obligations.TicksCountDownToZero : Prop :=
  ∀ (k : Nat) (s : State), let t := (runOps (List.replicate k .tickTimers) s).1
    (t.tmr.dt.toNat : Int) = max ((s.tmr.dt.toNat : Int) - k) 0 ∧
    (t.tmr.st.toNat : Int) = max ((s.tmr.st.toNat : Int) - k) 0

/-- R170 (D15): a step never counts a timer down; it changes `DT` only by `LD DT,Vx` and `ST` only by `LD ST,Vx`. -/
def Obligations.StepsDoNotTick : Prop :=
  ∀ s t : State, step s = .next t →
    (t.tmr.dt ≠ s.tmr.dt → ∃ w x, s.fetch = .ok w ∧ decodeWord w = .ok (.ldDtVx x)) ∧
    (t.tmr.st ≠ s.tmr.st → ∃ w x, s.fetch = .ok w ∧ decodeWord w = .ok (.ldStVx x))

/-- R165, R171: a tick and an instruction that names no timer, in either order, leave the same state; so do a tick and a
key poll. -/
def Obligations.TickCommutesWithTheRest : Prop :=
  (∀ (i : Instr) (s t : State), (∀ x : Nibble, i ≠ .ldVxDt x) → (∀ x : Nibble, i ≠ .ldDtVx x) →
    (∀ x : Nibble, i ≠ .ldStVx x) → exec i s = .next t →
    exec i (hostTickTimers s) = .next (hostTickTimers t)) ∧
  ∀ (s t : State) (r : Nibble), s.mode = .waitingForKey r → step s = .next t →
    step (hostTickTimers s) = .next (hostTickTimers t)

/-! ## The key wait (spec/45_keypad.md) -/

/-- R183 (D13): `LD Vx,K` begins the wait, leaves `pc` at its own address, and looks at no key. -/
def Obligations.KeyWaitBeginsAtItsInstruction : Prop :=
  (∀ (x : Nibble) (s : State), ∃ t, exec (.ldVxK x) s = .next t ∧ t.mode = .waitingForKey x ∧ t.pc = s.pc - 2 ∧
    SameExcept [.pc, .mode] s t) ∧
  ∀ (x : Nibble) (s : State) (w : Word), s.mode = .running → s.fetch = .ok w → decodeWord w = .ok (.ldVxK x) →
    ∃ t, step s = .next t ∧ t.mode = .waitingForKey x ∧ SameExcept [.mode] s t

/-! ## The host's operations (spec/46_host_interface.md) -/

/-- R201, R227 (D22): `load_program` copies an image of at most 3584 bytes to `0x200` and touches nothing else; a larger
one is turned away with the state untouched. -/
def Obligations.LoadProgramCopiesTheImage : Prop :=
  ∀ (bytes : List Byte) (s : State), s.mem.wf = true →
    (bytes.length ≤ 3584 → ∃ t, perform (.loadProgram bytes) s = (t, .ok) ∧
      (∀ k : Nat, ∀ h : k < bytes.length, Memory.read t.mem (0x200 + k) = bytes[k]) ∧
      (∀ a : Nat, (a < 0x200 ∨ 0x200 + bytes.length ≤ a) → Memory.read t.mem a = Memory.read s.mem a) ∧
      SameExcept [.mem] s t) ∧
    (3584 < bytes.length → perform (.loadProgram bytes) s = (s, .loadError .overSizedImage))

/-- R204, R205, R206: `set_key` writes one key, `take_dirty()` returns the old flag and clears it, `framebuffer()`
returns the pixels and changes nothing. -/
def Obligations.HostTouchesOnlyItsOwn : Prop :=
  (∀ (k : Nibble) (b : Bool) (s : State), ∃ t, perform (.setKey k b) s = (t, .ok) ∧
    (∀ j : Nibble, t.getKey j = if j = k then b else s.getKey j) ∧ SameExcept [.key] s t) ∧
  (∀ s : State, ∃ t, perform .takeDirty s = (t, .flag s.fbc.dirty) ∧
    t.fbc.dirty = false ∧ SameExcept [.dirty] s t) ∧
  ∀ s : State, ∃ g : Grid, perform .framebuffer s = (s, .view g) ∧
    ∀ (x : Fin 64) (y : Fin 32), g[y][x] = s.fbc.pixel x y

/-- R250, R200, R31 (the spec's decisions D10, D11, D4; notes/assumptions/4.md, 5.md, 18.md): what `init()` leaves, from
any state and with any parameters: registers, stack and timers 0, `pc = 0x200`, the machine's font in place and the rest
of memory 0, a blank clean screen, running, no key down. The same of the reset state. The parameters stay
(notes/assumptions/17.md), the reset state has the defaults of R6, and every font but no clipping is configurable
(R152). -/
def Obligations.InitLeavesTheResetValues : Prop :=
  (∀ s t : State, (t = State.reset ∨ perform .init s = (t, .ok) ∨ ∃ p, initWith p = .ok t) →
    (∀ r : Nibble, t.getV r = 0) ∧ t.i = 0 ∧ t.pc = 0x200 ∧ t.sp = 0 ∧ (∀ k : Nat, k < 16 → t.stack[k]? = some 0) ∧
    t.tmr.dt = 0 ∧ t.tmr.st = 0 ∧ (∀ a : Nat, a < 0x050 ∨ 0x0A0 ≤ a → Memory.read t.mem a = 0) ∧
    (∀ k : Nat, ∀ h : k < t.font.bytes.length, Memory.read t.mem (0x050 + k) = t.font.bytes[k]) ∧
    t.font.bytes.length = 80 ∧ (∀ (x : Fin 64) (y : Fin 32), t.fbc.pixel x y = false) ∧ t.fbc.dirty = false ∧
    t.mode = .running ∧ ∀ k : Nibble, t.getKey k = false) ∧
  (∀ s t : State, perform .init s = (t, .ok) → t.font = s.font ∧ t.addrWrapCompat = s.addrWrapCompat) ∧
  initWith Config.defaultParams = .ok State.reset ∧
  ∀ p : Config.Params,
    (p.spriteClip = false → ∃ t, initWith p = .ok t ∧ t.font = p.font ∧ t.addrWrapCompat = p.addrWrapCompat) ∧
    (p.spriteClip = true → initWith p = .error .spriteClip)

/-- R31, R124: after `init()`, whatever the font, the five bytes at the address `LD F,Vx` gives for the digit 5 are the
glyph the source states. It says nothing of the fifteen glyphs that are general knowledge (notes/assumptions/4.md). -/
def Obligations.DigitFiveGlyphIsInPlace : Prop :=
  ∀ (x : Nibble) (s t u v : State), (s.getV x).toNat % 16 = 5 → exec (.ldFVx x) s = .next t →
    (u = State.reset ∨ perform .init v = (u, .ok) ∨ ∃ p, initWith p = .ok u) →
    (List.range 5).map (fun k => Memory.read u.mem (t.i.toNat + k)) = [0xF0, 0x80, 0xF0, 0x10, 0xF0]

/-! ## Whole-machine rules and invariants -/

/-- Every instruction leaves unchanged every part of the state that 10_state.md section 1 does not list it as a writer
of. -/
def Obligations.InstructionsWriteOnlyTheirParts : Prop :=
  ∀ (i : Instr) (s t : State), exec i s = .next t → SameExcept (partsWritten i) s t

/-- R11: exactly seven instructions write `V[F]` as a flag, each with 0 or 1 on every execution; every other register
change is to an ordinary destination. -/
def Obligations.RegistersChangeAsDestinationOrFlag : Prop :=
  ∀ (i : Instr) (s t : State), exec i s = .next t →
    (writesFlag i = true → t.getV 0xF = 0 ∨ t.getV 0xF = 1) ∧
    ∀ r : Nibble, isDestination i r = false → (writesFlag i = false ∨ r ≠ 0xF) → t.getV r = s.getV r

/-- R234, R16, R183, R184: whatever its mode, a step writes no key and no parameter (that the parameters stand in
State is the model's choice, notes/assumptions/2.md, 4.md), and moves between the two modes only so: a step in a wait
ends it with some key down or leaves the state as it was; a running step that begins a wait for `V[r]` fetched the `LD
Vx,K` with `x = r`, and leaves `pc` (D13, notes/assumptions/18.md). -/
def Obligations.StepsWriteNoKey : Prop :=
  ∀ s t : State, step s = .next t →
    t.key = s.key ∧ t.addrWrapCompat = s.addrWrapCompat ∧ t.font = s.font ∧
    (∀ r : Nibble, s.mode = .waitingForKey r → (t.mode = .running ∧ ∃ k : Nibble, s.getKey k = true) ∨ t = s) ∧
    (s.mode = .running → ∀ r : Nibble, t.mode = .waitingForKey r →
      t.pc = s.pc ∧ ∃ w, s.fetch = .ok w ∧ decodeWord w = .ok (.ldVxK r))

/-- R198 (R195 to R197, the spec's decision D14): the block changes only by the commands an instruction or an operation
of the host issues; the bit `Draw` returns goes to `V[F]` and the byte `ReadDT` returns to `V[x]`; a step that polls the
keypad, passes over an unrecognized word or faults issues none. -/
def Obligations.BlockObeysItsCommands : Prop :=
  (∀ (i : Instr) (s t : State), exec i s = .next t → t.block = performBlockAll (issuedBy s i) s.block) ∧
  (∀ (x y n : Nibble) (s t : State), exec (.drwVxVyN x y n) s = .next t →
    ∃ c b, issuedBy s (.drwVxVyN x y n) = [c] ∧ (performBlock c s.block).2 = .bit b ∧
      t.getV 0xF = (if b = true then 1 else 0)) ∧
  (∀ (x : Nibble) (s t : State), exec (.ldVxDt x) s = .next t →
    (performBlock .readDt s.block).2 = .byte (t.getV x)) ∧
  (∀ (op : HostOp) (s : State), op ≠ .step →
    (perform op s).1.block = performBlockAll (issuedByHost op) s.block) ∧
  ∀ s : State, (perform .step s).1.block = s.block ∨
    ∃ w i, s.mode = .running ∧ s.fetch = .ok w ∧ decodeWord w = .ok i ∧
      (perform .step s).1.block = performBlockAll (issuedBy s i) s.block

/-- Every step keeps the invariant: the canonical memory, and that a key wait stands at its `LD Vx,K` (R29). -/
def Obligations.StepKeepsTheInvariant : Prop := ∀ s t : State, Inv s → step s = .next t → Inv t

/-- The reset state meets the invariant. -/
def Obligations.ResetMeetsTheInvariant : Prop := Inv State.reset

/-- Every operation of the host keeps the invariant, but that `load_program` may overwrite the instruction of a wait
(R29); and any execution keeps the memory canonical. -/
def Obligations.HostOperationsKeepTheInvariant : Prop :=
  (∀ (op : HostOp) (s : State), (∀ bytes : List Byte, op ≠ .loadProgram bytes) →
    Inv s → Inv (perform op s).1) ∧
  ∀ (ops : List HostOp) (s : State), s.mem.wf = true → (runOps ops s).1.mem.wf = true
end

