-- ==== Sys2Proof/Laws/Decode.lean ====
section
/-! SUPPORT. The fields of a packed word, a word as its fields packed again, and what the masks of R65 say of a word's
fields. -/

namespace Sys2Proof

/-! ### Fields of a packed word (R61) -/

@[simp] theorem prefixOf_packA (p : Nibble) (a : Addr) : prefixOf (packA p a) = p :=
  BitVec.extractLsb'_append_eq_left

@[simp] theorem nnnOf_packA (p : Nibble) (a : Addr) : nnnOf (packA p a) = a :=
  BitVec.extractLsb'_append_eq_right

@[simp] theorem prefixOf_packXK (p x : Nibble) (k : Byte) : prefixOf (packXK p x k) = p :=
  BitVec.extractLsb'_append_eq_left

@[simp] theorem xOf_packXK (p x : Nibble) (k : Byte) : xOf (packXK p x k) = x :=
  (BitVec.extractLsb'_append_eq_of_add_le (by decide)).trans BitVec.extractLsb'_append_eq_left

@[simp] theorem kkOf_packXK (p x : Nibble) (k : Byte) : kkOf (packXK p x k) = k :=
  (BitVec.extractLsb'_append_eq_of_add_le (by decide)).trans BitVec.extractLsb'_append_eq_right

@[simp] theorem prefixOf_packXYN (p x y n : Nibble) : prefixOf (packXYN p x y n) = p := by simp [packXYN]

@[simp] theorem xOf_packXYN (p x y n : Nibble) : xOf (packXYN p x y n) = x := by simp [packXYN]

@[simp] theorem yOf_packXYN (p x y n : Nibble) : yOf (packXYN p x y n) = y :=
  (BitVec.extractLsb'_append_eq_of_add_le (by decide)).trans
    ((BitVec.extractLsb'_append_eq_of_add_le (by decide)).trans BitVec.extractLsb'_append_eq_left)

@[simp] theorem nOf_packXYN (p x y n : Nibble) : nOf (packXYN p x y n) = n :=
  (BitVec.extractLsb'_append_eq_of_add_le (by decide)).trans
    ((BitVec.extractLsb'_append_eq_of_add_le (by decide)).trans BitVec.extractLsb'_append_eq_right)

/-! ### A word is its fields packed again (R61: `nnn = x ++ kk`, `kk = y ++ n`) -/

theorem packA_fields (w : Word) : packA (prefixOf w) (nnnOf w) = w :=
  (BitVec.extractLsb'_append_extractLsb'_eq_extractLsb' (by decide)).trans BitVec.extractLsb'_eq_self

theorem nnnOf_eq (w : Word) : nnnOf w = xOf w ++ kkOf w :=
  (BitVec.extractLsb'_append_extractLsb'_eq_extractLsb' (x := w) (start₁ := 0) (len₁ := 8) (len₂ := 4) rfl).symm

theorem kkOf_eq (w : Word) : kkOf w = yOf w ++ nOf w :=
  (BitVec.extractLsb'_append_extractLsb'_eq_extractLsb' (x := w) (start₁ := 0) (len₁ := 4) (len₂ := 4) rfl).symm

theorem packXK_fields (w : Word) : packXK (prefixOf w) (xOf w) (kkOf w) = w :=
  (congrArg (packA (prefixOf w)) (nnnOf_eq w).symm).trans (packA_fields w)

theorem packXYN_fields (w : Word) : packXYN (prefixOf w) (xOf w) (yOf w) (nOf w) = w :=
  (congrArg (packXK (prefixOf w) (xOf w)) (kkOf_eq w).symm).trans (packXK_fields w)

/-- The two bytes of a word, high byte first, are the word again (R41). -/
theorem wordOfBytes_bytes (w : Word) : wordOfBytes (highByte w) (lowByte w) = w :=
  (BitVec.extractLsb'_append_extractLsb'_eq_extractLsb' (by decide)).trans BitVec.extractLsb'_eq_self

theorem wordOfBytes_toNat (hi lo : Byte) : (wordOfBytes hi lo).toNat = hi.toNat * 256 + lo.toNat := by
  have h : (wordOfBytes hi lo).toNat = (hi ++ lo).toNat := rfl
  rw [h, BitVec.toNat_append, Nat.shiftLeft_eq, ← Nat.shiftLeft_eq, ← Nat.shiftLeft_add_eq_or_of_lt lo.isLt,
    Nat.shiftLeft_eq]

/-! ### Masks (R65) -/

theorem packA_and (p q : Nibble) (a b : Addr) : packA p a &&& packA q b = packA (p &&& q) (a &&& b) :=
  BitVec.and_append

theorem packXK_and (p q x y : Nibble) (k l : Byte) :
    packXK p x k &&& packXK q y l = packXK (p &&& q) (x &&& y) (k &&& l) :=
  BitVec.and_append.trans (congrArg (packA (p &&& q)) BitVec.and_append)

theorem packXYN_and (p q x y z u n m : Nibble) :
    packXYN p x z n &&& packXYN q y u m = packXYN (p &&& q) (x &&& y) (z &&& u) (n &&& m) :=
  (packXK_and _ _ _ _ _ _).trans (congrArg (packXK (p &&& q) (x &&& y)) BitVec.and_append)

theorem nibble_and_F (n : Nibble) : n &&& 0xF = n := BitVec.and_allOnes

theorem nibble_and_0 (n : Nibble) : n &&& 0 = 0 := BitVec.and_zero

theorem addr_and_0 (a : Addr) : a &&& 0 = 0 := BitVec.and_zero

theorem byte_and_FF (b : Byte) : b &&& 0xFF = b := BitVec.and_allOnes

/-- Mask `F000` keeps the prefix. -/
theorem and_F000 (w : Word) : w &&& 0xF000 = packA (prefixOf w) 0 := by
  have h := packA_and (prefixOf w) 0xF (nnnOf w) 0
  rw [packA_fields, nibble_and_F, addr_and_0] at h
  exact h

/-- Mask `F0FF` keeps the prefix and `kk`. -/
theorem and_F0FF (w : Word) : w &&& 0xF0FF = packXK (prefixOf w) 0 (kkOf w) := by
  have h := packXK_and (prefixOf w) 0xF (xOf w) 0 (kkOf w) 0xFF
  rw [packXK_fields, nibble_and_F, byte_and_FF, nibble_and_0] at h
  exact h

/-- Mask `F00F` keeps the prefix and `n`. -/
theorem and_F00F (w : Word) : w &&& 0xF00F = packXYN (prefixOf w) 0 0 (nOf w) := by
  have h := packXYN_and (prefixOf w) 0xF (xOf w) 0 (yOf w) 0 (nOf w) 0xF
  rw [packXYN_fields, nibble_and_F, nibble_and_F, nibble_and_0, nibble_and_0] at h
  exact h

/-- A word matches a row with mask `F000` iff it has the row's prefix. -/
theorem and_F000_eq_iff (w : Word) (p : Nibble) : w &&& 0xF000 = packA p 0 ↔ prefixOf w = p := by
  rw [and_F000]
  exact ⟨fun h => by simpa using congrArg prefixOf h, fun h => by rw [h]⟩

/-- A word matches a row with mask `F0FF` iff it has the row's prefix and `kk`. -/
theorem and_F0FF_eq_iff (w : Word) (p : Nibble) (k : Byte) :
    w &&& 0xF0FF = packXK p 0 k ↔ prefixOf w = p ∧ kkOf w = k := by
  rw [and_F0FF]
  exact ⟨fun h => ⟨by simpa using congrArg prefixOf h, by simpa using congrArg kkOf h⟩, fun h => by rw [h.1, h.2]⟩

/-- A word matches a row with mask `F00F` iff it has the row's prefix and `n`. -/
theorem and_F00F_eq_iff (w : Word) (p n : Nibble) :
    w &&& 0xF00F = packXYN p 0 0 n ↔ prefixOf w = p ∧ nOf w = n := by
  rw [and_F00F]
  exact ⟨fun h => ⟨by simpa using congrArg prefixOf h, by simpa using congrArg nOf h⟩, fun h => by rw [h.1, h.2]⟩

end Sys2Proof
end

