-- ==== Sys2Proof/Laws/State.lean ====
section
/-! SUPPORT. One lemma per field per update, so that no later proof unfolds a record update; reading a register or a
key after an update; a register file is what its registers read as. -/

namespace Sys2Proof.Machine

/-! ### `setV` -/

@[simp] theorem State.setV_v (s : State) (x : Nibble) (b : Byte) : (s.setV x b).v = s.v.set x.toNat b x.isLt := rfl
@[simp] theorem State.setV_i (s : State) (x : Nibble) (b : Byte) : (s.setV x b).i = s.i := rfl
@[simp] theorem State.setV_pc (s : State) (x : Nibble) (b : Byte) : (s.setV x b).pc = s.pc := rfl
@[simp] theorem State.setV_sp (s : State) (x : Nibble) (b : Byte) : (s.setV x b).sp = s.sp := rfl
@[simp] theorem State.setV_stack (s : State) (x : Nibble) (b : Byte) : (s.setV x b).stack = s.stack := rfl
@[simp] theorem State.setV_mode (s : State) (x : Nibble) (b : Byte) : (s.setV x b).mode = s.mode := rfl
@[simp] theorem State.setV_key (s : State) (x : Nibble) (b : Byte) : (s.setV x b).key = s.key := rfl
@[simp] theorem State.setV_mem (s : State) (x : Nibble) (b : Byte) : (s.setV x b).mem = s.mem := rfl
@[simp] theorem State.setV_fbc (s : State) (x : Nibble) (b : Byte) : (s.setV x b).fbc = s.fbc := rfl
@[simp] theorem State.setV_tmr (s : State) (x : Nibble) (b : Byte) : (s.setV x b).tmr = s.tmr := rfl
@[simp] theorem State.setV_addrWrapCompat (s : State) (x : Nibble) (b : Byte) : (s.setV x b).addrWrapCompat = s.addrWrapCompat := rfl
@[simp] theorem State.setV_font (s : State) (x : Nibble) (b : Byte) : (s.setV x b).font = s.font := rfl
@[simp] theorem State.setV_draws (s : State) (x : Nibble) (b : Byte) : (s.setV x b).draws = s.draws := rfl
@[simp] theorem State.setV_getKey (s : State) (x : Nibble) (b : Byte) (k : Nibble) : (s.setV x b).getKey k = s.getKey k := rfl
@[simp] theorem State.setV_dataAddr (s : State) (x : Nibble) (b : Byte) (k : Nat) : (s.setV x b).dataAddr k = s.dataAddr k := rfl
@[simp] theorem State.setV_dataInRange (s : State) (x : Nibble) (b : Byte) (n : Nat) : (s.setV x b).dataInRange n = s.dataInRange n := rfl
@[simp] theorem State.setV_readData (s : State) (x : Nibble) (b : Byte) (n : Nat) : (s.setV x b).readData n = s.readData n := rfl

/-! ### `setI` -/

@[simp] theorem State.setI_v (s : State) (w : Word) : (s.setI w).v = s.v := rfl
@[simp] theorem State.setI_i (s : State) (w : Word) : (s.setI w).i = w := rfl
@[simp] theorem State.setI_pc (s : State) (w : Word) : (s.setI w).pc = s.pc := rfl
@[simp] theorem State.setI_sp (s : State) (w : Word) : (s.setI w).sp = s.sp := rfl
@[simp] theorem State.setI_stack (s : State) (w : Word) : (s.setI w).stack = s.stack := rfl
@[simp] theorem State.setI_mode (s : State) (w : Word) : (s.setI w).mode = s.mode := rfl
@[simp] theorem State.setI_key (s : State) (w : Word) : (s.setI w).key = s.key := rfl
@[simp] theorem State.setI_mem (s : State) (w : Word) : (s.setI w).mem = s.mem := rfl
@[simp] theorem State.setI_fbc (s : State) (w : Word) : (s.setI w).fbc = s.fbc := rfl
@[simp] theorem State.setI_tmr (s : State) (w : Word) : (s.setI w).tmr = s.tmr := rfl
@[simp] theorem State.setI_addrWrapCompat (s : State) (w : Word) : (s.setI w).addrWrapCompat = s.addrWrapCompat := rfl
@[simp] theorem State.setI_font (s : State) (w : Word) : (s.setI w).font = s.font := rfl
@[simp] theorem State.setI_draws (s : State) (w : Word) : (s.setI w).draws = s.draws := rfl
@[simp] theorem State.setI_getV (s : State) (w : Word) (r : Nibble) : (s.setI w).getV r = s.getV r := rfl
@[simp] theorem State.setI_getKey (s : State) (w : Word) (k : Nibble) : (s.setI w).getKey k = s.getKey k := rfl

/-! ### `setPc` -/

@[simp] theorem State.setPc_v (s : State) (w : Word) : (s.setPc w).v = s.v := rfl
@[simp] theorem State.setPc_i (s : State) (w : Word) : (s.setPc w).i = s.i := rfl
@[simp] theorem State.setPc_pc (s : State) (w : Word) : (s.setPc w).pc = w := rfl
@[simp] theorem State.setPc_sp (s : State) (w : Word) : (s.setPc w).sp = s.sp := rfl
@[simp] theorem State.setPc_stack (s : State) (w : Word) : (s.setPc w).stack = s.stack := rfl
@[simp] theorem State.setPc_mode (s : State) (w : Word) : (s.setPc w).mode = s.mode := rfl
@[simp] theorem State.setPc_key (s : State) (w : Word) : (s.setPc w).key = s.key := rfl
@[simp] theorem State.setPc_mem (s : State) (w : Word) : (s.setPc w).mem = s.mem := rfl
@[simp] theorem State.setPc_fbc (s : State) (w : Word) : (s.setPc w).fbc = s.fbc := rfl
@[simp] theorem State.setPc_tmr (s : State) (w : Word) : (s.setPc w).tmr = s.tmr := rfl
@[simp] theorem State.setPc_addrWrapCompat (s : State) (w : Word) : (s.setPc w).addrWrapCompat = s.addrWrapCompat := rfl
@[simp] theorem State.setPc_font (s : State) (w : Word) : (s.setPc w).font = s.font := rfl
@[simp] theorem State.setPc_draws (s : State) (w : Word) : (s.setPc w).draws = s.draws := rfl
@[simp] theorem State.setPc_getV (s : State) (w : Word) (r : Nibble) : (s.setPc w).getV r = s.getV r := rfl
@[simp] theorem State.setPc_getKey (s : State) (w : Word) (k : Nibble) : (s.setPc w).getKey k = s.getKey k := rfl
@[simp] theorem State.setPc_dataAddr (s : State) (w : Word) (k : Nat) : (s.setPc w).dataAddr k = s.dataAddr k := rfl
@[simp] theorem State.setPc_dataInRange (s : State) (w : Word) (n : Nat) : (s.setPc w).dataInRange n = s.dataInRange n := rfl
@[simp] theorem State.setPc_readData (s : State) (w : Word) (n : Nat) : (s.setPc w).readData n = s.readData n := rfl

/-! ### `advancePc` -/

@[simp] theorem State.advancePc_v (s : State) : (s.advancePc).v = s.v := rfl
@[simp] theorem State.advancePc_i (s : State) : (s.advancePc).i = s.i := rfl
@[simp] theorem State.advancePc_pc (s : State) : (s.advancePc).pc = s.pc + 2 := rfl
@[simp] theorem State.advancePc_sp (s : State) : (s.advancePc).sp = s.sp := rfl
@[simp] theorem State.advancePc_stack (s : State) : (s.advancePc).stack = s.stack := rfl
@[simp] theorem State.advancePc_mode (s : State) : (s.advancePc).mode = s.mode := rfl
@[simp] theorem State.advancePc_key (s : State) : (s.advancePc).key = s.key := rfl
@[simp] theorem State.advancePc_mem (s : State) : (s.advancePc).mem = s.mem := rfl
@[simp] theorem State.advancePc_fbc (s : State) : (s.advancePc).fbc = s.fbc := rfl
@[simp] theorem State.advancePc_tmr (s : State) : (s.advancePc).tmr = s.tmr := rfl
@[simp] theorem State.advancePc_addrWrapCompat (s : State) : (s.advancePc).addrWrapCompat = s.addrWrapCompat := rfl
@[simp] theorem State.advancePc_font (s : State) : (s.advancePc).font = s.font := rfl
@[simp] theorem State.advancePc_draws (s : State) : (s.advancePc).draws = s.draws := rfl
@[simp] theorem State.advancePc_getV (s : State) (r : Nibble) : (s.advancePc).getV r = s.getV r := rfl
@[simp] theorem State.advancePc_getKey (s : State) (k : Nibble) : (s.advancePc).getKey k = s.getKey k := rfl
@[simp] theorem State.advancePc_dataAddr (s : State) (k : Nat) : (s.advancePc).dataAddr k = s.dataAddr k := rfl
@[simp] theorem State.advancePc_dataInRange (s : State) (n : Nat) : (s.advancePc).dataInRange n = s.dataInRange n := rfl
@[simp] theorem State.advancePc_readData (s : State) (n : Nat) : (s.advancePc).readData n = s.readData n := rfl

/-! ### `setMode` -/

@[simp] theorem State.setMode_v (s : State) (m : Mode) : (s.setMode m).v = s.v := rfl
@[simp] theorem State.setMode_i (s : State) (m : Mode) : (s.setMode m).i = s.i := rfl
@[simp] theorem State.setMode_pc (s : State) (m : Mode) : (s.setMode m).pc = s.pc := rfl
@[simp] theorem State.setMode_sp (s : State) (m : Mode) : (s.setMode m).sp = s.sp := rfl
@[simp] theorem State.setMode_stack (s : State) (m : Mode) : (s.setMode m).stack = s.stack := rfl
@[simp] theorem State.setMode_mode (s : State) (m : Mode) : (s.setMode m).mode = m := rfl
@[simp] theorem State.setMode_key (s : State) (m : Mode) : (s.setMode m).key = s.key := rfl
@[simp] theorem State.setMode_mem (s : State) (m : Mode) : (s.setMode m).mem = s.mem := rfl
@[simp] theorem State.setMode_fbc (s : State) (m : Mode) : (s.setMode m).fbc = s.fbc := rfl
@[simp] theorem State.setMode_tmr (s : State) (m : Mode) : (s.setMode m).tmr = s.tmr := rfl
@[simp] theorem State.setMode_addrWrapCompat (s : State) (m : Mode) : (s.setMode m).addrWrapCompat = s.addrWrapCompat := rfl
@[simp] theorem State.setMode_font (s : State) (m : Mode) : (s.setMode m).font = s.font := rfl
@[simp] theorem State.setMode_draws (s : State) (m : Mode) : (s.setMode m).draws = s.draws := rfl
@[simp] theorem State.setMode_getV (s : State) (m : Mode) (r : Nibble) : (s.setMode m).getV r = s.getV r := rfl
@[simp] theorem State.setMode_getKey (s : State) (m : Mode) (k : Nibble) : (s.setMode m).getKey k = s.getKey k := rfl
@[simp] theorem State.setMode_dataAddr (s : State) (m : Mode) (k : Nat) : (s.setMode m).dataAddr k = s.dataAddr k := rfl
@[simp] theorem State.setMode_dataInRange (s : State) (m : Mode) (n : Nat) : (s.setMode m).dataInRange n = s.dataInRange n := rfl
@[simp] theorem State.setMode_readData (s : State) (m : Mode) (n : Nat) : (s.setMode m).readData n = s.readData n := rfl

/-! ### `setFbc` -/

@[simp] theorem State.setFbc_v (s : State) (f : Fbc) : (s.setFbc f).v = s.v := rfl
@[simp] theorem State.setFbc_i (s : State) (f : Fbc) : (s.setFbc f).i = s.i := rfl
@[simp] theorem State.setFbc_pc (s : State) (f : Fbc) : (s.setFbc f).pc = s.pc := rfl
@[simp] theorem State.setFbc_sp (s : State) (f : Fbc) : (s.setFbc f).sp = s.sp := rfl
@[simp] theorem State.setFbc_stack (s : State) (f : Fbc) : (s.setFbc f).stack = s.stack := rfl
@[simp] theorem State.setFbc_mode (s : State) (f : Fbc) : (s.setFbc f).mode = s.mode := rfl
@[simp] theorem State.setFbc_key (s : State) (f : Fbc) : (s.setFbc f).key = s.key := rfl
@[simp] theorem State.setFbc_mem (s : State) (f : Fbc) : (s.setFbc f).mem = s.mem := rfl
@[simp] theorem State.setFbc_fbc (s : State) (f : Fbc) : (s.setFbc f).fbc = f := rfl
@[simp] theorem State.setFbc_tmr (s : State) (f : Fbc) : (s.setFbc f).tmr = s.tmr := rfl
@[simp] theorem State.setFbc_addrWrapCompat (s : State) (f : Fbc) : (s.setFbc f).addrWrapCompat = s.addrWrapCompat := rfl
@[simp] theorem State.setFbc_font (s : State) (f : Fbc) : (s.setFbc f).font = s.font := rfl
@[simp] theorem State.setFbc_draws (s : State) (f : Fbc) : (s.setFbc f).draws = s.draws := rfl
@[simp] theorem State.setFbc_getV (s : State) (f : Fbc) (r : Nibble) : (s.setFbc f).getV r = s.getV r := rfl
@[simp] theorem State.setFbc_getKey (s : State) (f : Fbc) (k : Nibble) : (s.setFbc f).getKey k = s.getKey k := rfl
@[simp] theorem State.setFbc_dataAddr (s : State) (f : Fbc) (k : Nat) : (s.setFbc f).dataAddr k = s.dataAddr k := rfl
@[simp] theorem State.setFbc_dataInRange (s : State) (f : Fbc) (n : Nat) : (s.setFbc f).dataInRange n = s.dataInRange n := rfl
@[simp] theorem State.setFbc_readData (s : State) (f : Fbc) (n : Nat) : (s.setFbc f).readData n = s.readData n := rfl

/-! ### `setTmr` -/

@[simp] theorem State.setTmr_v (s : State) (t : Tmr) : (s.setTmr t).v = s.v := rfl
@[simp] theorem State.setTmr_i (s : State) (t : Tmr) : (s.setTmr t).i = s.i := rfl
@[simp] theorem State.setTmr_pc (s : State) (t : Tmr) : (s.setTmr t).pc = s.pc := rfl
@[simp] theorem State.setTmr_sp (s : State) (t : Tmr) : (s.setTmr t).sp = s.sp := rfl
@[simp] theorem State.setTmr_stack (s : State) (t : Tmr) : (s.setTmr t).stack = s.stack := rfl
@[simp] theorem State.setTmr_mode (s : State) (t : Tmr) : (s.setTmr t).mode = s.mode := rfl
@[simp] theorem State.setTmr_key (s : State) (t : Tmr) : (s.setTmr t).key = s.key := rfl
@[simp] theorem State.setTmr_mem (s : State) (t : Tmr) : (s.setTmr t).mem = s.mem := rfl
@[simp] theorem State.setTmr_fbc (s : State) (t : Tmr) : (s.setTmr t).fbc = s.fbc := rfl
@[simp] theorem State.setTmr_tmr (s : State) (t : Tmr) : (s.setTmr t).tmr = t := rfl
@[simp] theorem State.setTmr_addrWrapCompat (s : State) (t : Tmr) : (s.setTmr t).addrWrapCompat = s.addrWrapCompat := rfl
@[simp] theorem State.setTmr_font (s : State) (t : Tmr) : (s.setTmr t).font = s.font := rfl
@[simp] theorem State.setTmr_draws (s : State) (t : Tmr) : (s.setTmr t).draws = s.draws := rfl
@[simp] theorem State.setTmr_getV (s : State) (t : Tmr) (r : Nibble) : (s.setTmr t).getV r = s.getV r := rfl
@[simp] theorem State.setTmr_getKey (s : State) (t : Tmr) (k : Nibble) : (s.setTmr t).getKey k = s.getKey k := rfl
@[simp] theorem State.setTmr_dataAddr (s : State) (t : Tmr) (k : Nat) : (s.setTmr t).dataAddr k = s.dataAddr k := rfl
@[simp] theorem State.setTmr_dataInRange (s : State) (t : Tmr) (n : Nat) : (s.setTmr t).dataInRange n = s.dataInRange n := rfl
@[simp] theorem State.setTmr_readData (s : State) (t : Tmr) (n : Nat) : (s.setTmr t).readData n = s.readData n := rfl

/-! ### `setFlag` -/

@[simp] theorem State.setFlag_v (s : State) (c : Bool) : (s.setFlag c).v = s.v.set 15 (flagByte c) (by decide) := rfl
@[simp] theorem State.setFlag_i (s : State) (c : Bool) : (s.setFlag c).i = s.i := rfl
@[simp] theorem State.setFlag_pc (s : State) (c : Bool) : (s.setFlag c).pc = s.pc := rfl
@[simp] theorem State.setFlag_sp (s : State) (c : Bool) : (s.setFlag c).sp = s.sp := rfl
@[simp] theorem State.setFlag_stack (s : State) (c : Bool) : (s.setFlag c).stack = s.stack := rfl
@[simp] theorem State.setFlag_mode (s : State) (c : Bool) : (s.setFlag c).mode = s.mode := rfl
@[simp] theorem State.setFlag_key (s : State) (c : Bool) : (s.setFlag c).key = s.key := rfl
@[simp] theorem State.setFlag_mem (s : State) (c : Bool) : (s.setFlag c).mem = s.mem := rfl
@[simp] theorem State.setFlag_fbc (s : State) (c : Bool) : (s.setFlag c).fbc = s.fbc := rfl
@[simp] theorem State.setFlag_tmr (s : State) (c : Bool) : (s.setFlag c).tmr = s.tmr := rfl
@[simp] theorem State.setFlag_addrWrapCompat (s : State) (c : Bool) : (s.setFlag c).addrWrapCompat = s.addrWrapCompat := rfl
@[simp] theorem State.setFlag_font (s : State) (c : Bool) : (s.setFlag c).font = s.font := rfl
@[simp] theorem State.setFlag_draws (s : State) (c : Bool) : (s.setFlag c).draws = s.draws := rfl
@[simp] theorem State.setFlag_getKey (s : State) (c : Bool) (k : Nibble) : (s.setFlag c).getKey k = s.getKey k := rfl
@[simp] theorem State.setFlag_dataAddr (s : State) (c : Bool) (k : Nat) : (s.setFlag c).dataAddr k = s.dataAddr k := rfl
@[simp] theorem State.setFlag_dataInRange (s : State) (c : Bool) (n : Nat) : (s.setFlag c).dataInRange n = s.dataInRange n := rfl
@[simp] theorem State.setFlag_readData (s : State) (c : Bool) (n : Nat) : (s.setFlag c).readData n = s.readData n := rfl

/-! ### The timer pair -/

@[simp] theorem readDt_eq (t : Tmr) : readDt t = t.dt := rfl
@[simp] theorem stOutput_eq (t : Tmr) : stOutput t = t.st := rfl
@[simp] theorem loadDt_dt (b : Byte) (t : Tmr) : (loadDt b t).dt = b := rfl
@[simp] theorem loadDt_st (b : Byte) (t : Tmr) : (loadDt b t).st = t.st := rfl
@[simp] theorem loadSt_dt (b : Byte) (t : Tmr) : (loadSt b t).dt = t.dt := rfl
@[simp] theorem loadSt_st (b : Byte) (t : Tmr) : (loadSt b t).st = b := rfl

/-! ### Registers -/

/-- What a write of `V[x]` does to a read of `V[r]` (R10). -/
@[simp] theorem State.getV_setV (s : State) (x : Nibble) (b : Byte) (r : Nibble) :
    (s.setV x b).getV r = if r = x then b else s.getV r := by
  simp only [State.getV, State.setV, Vector.getElem_set, BitVec.toNat_inj, eq_comm (a := x)]

/-- What a write of the flag does to a read of `V[r]` (R11). -/
@[simp] theorem State.getV_setFlag (s : State) (c : Bool) (r : Nibble) :
    (s.setFlag c).getV r = if r = 0xF then flagByte c else s.getV r :=
  s.getV_setV 0xF (flagByte c) r

/-- The flag is the last write: with `x = 15` it is what `V[F]` holds (R112). -/
theorem State.getV_setVThenFlag (s : State) (x : Nibble) (b : Byte) (c : Bool) (r : Nibble) :
    (s.setVThenFlag x b c).getV r = if r = 0xF then flagByte c else if r = x then b else s.getV r := by
  simp [State.setVThenFlag]

/-- `setVThenFlag` writes the register file alone. -/
theorem State.setVThenFlag_eq (s : State) (x : Nibble) (b : Byte) (c : Bool) :
    s.setVThenFlag x b c = { s with v := (s.setVThenFlag x b c).v } := rfl

/-- Register files that read alike are equal. -/
theorem State.v_ext {s t : State} (h : ∀ r, t.getV r = s.getV r) : t.v = s.v := by
  refine Vector.ext fun k hk => ?_
  simpa [State.getV, Nat.mod_eq_of_lt hk] using h (BitVec.ofNat 4 k)

/-- A flag byte is 0 or 1 (R11). -/
theorem flagByte_zero_or_one (c : Bool) : flagByte c = 0 ∨ flagByte c = 1 := by
  cases c <;> simp [flagByte]

end Sys2Proof.Machine
end

