-- ==== Sys2Proof/Laws/Draw.lean ====
section
/-! SUPPORT. What one pixel of `Draw` does, and that a draw leaves the pixels it does not target. -/

namespace Sys2Proof.Machine

/-- The grid after `drawPixel`: the one target pixel is XORed with the sprite bit (R144). -/
theorem drawPixel_grid (vx vy : Byte) (i j : Nat) (b : Bool) (acc : Grid × Bool) (px py : Nat) (hx : px < 64)
    (hy : py < 32) :
    (drawPixel vx vy i j b acc).1[py][px] =
      if px = (vx.toNat + j) % 64 ∧ py = (vy.toNat + i) % 32 then acc.1[py][px] ^^ b else acc.1[py][px] := by
  by_cases h2 : py = (vy.toNat + i) % 32
  · subst h2
    by_cases h1 : px = (vx.toNat + j) % 64
    · subst h1
      simp [drawPixel]
    · rw [if_neg (by simp [h1])]
      simp [drawPixel, Ne.symm h1]
  · rw [if_neg (by simp [h2])]
    simp [drawPixel, Ne.symm h2]

/-- The collision after `drawPixel`: a lit pixel under a sprite bit turns off (R146). -/
theorem drawPixel_collision (vx vy : Byte) (i j : Nat) (b : Bool) (acc : Grid × Bool) :
    (drawPixel vx vy i j b acc).2 =
      (acc.2 || (b && (acc.1[(vy.toNat + i) % 32]'(Nat.mod_lt _ (by decide)))[(vx.toNat + j) % 64]'(Nat.mod_lt _
        (by decide)))) := rfl

/-- `Draw` marks the framebuffer dirty, whatever it draws (R150). -/
@[simp] theorem drawSprite_dirty (vx vy : Byte) (rows : List Byte) (f : Fbc) :
    (drawSprite vx vy rows f).1.dirty = true := rfl

/-- `Draw` of no rows changes no pixel and collides with none (R151). -/
@[simp] theorem drawSprite_nil (vx vy : Byte) (f : Fbc) :
    drawSprite vx vy [] f = ({ fb := f.fb, dirty := true }, false) := rfl

/-- `Clear` leaves every pixel 0 (R141). -/
@[simp] theorem clearScreen_pixel (f : Fbc) (x : Fin 64) (y : Fin 32) : (clearScreen f).pixel x y = false := by
  simp [clearScreen, Fbc.pixel, blankGrid]

end Sys2Proof.Machine
end

