-- ==== Sys2Proof/Laws/Memory.lean ====
section
/-! SUPPORT. Memory: reading after writing, and that every memory operation keeps the canonical form. -/

namespace Sys2Proof.Machine

/-! ### One byte -/

theorem Memory.wfFrom_cons {lo a : Nat} {b : Byte} {m : Memory} :
    Memory.wfFrom lo ((a, b) :: m) = true ↔
      lo ≤ a ∧ a < Config.memSize ∧ b ≠ Memory.resetByte a ∧ Memory.wfFrom (a + 1) m = true := by
  simp [Memory.wfFrom, and_assoc]

/-- The bound can be lowered. -/
theorem Memory.wfFrom_mono {lo lo' : Nat} {m : Memory} (h : Memory.wfFrom lo m = true) (hl : lo' ≤ lo) :
    Memory.wfFrom lo' m = true := by
  cases m with
  | nil => rfl
  | cons p m =>
    obtain ⟨h1, h2, h3, h4⟩ := Memory.wfFrom_cons.mp h
    exact Memory.wfFrom_cons.mpr ⟨by omega, h2, h3, h4⟩

/-- An address below all listed ones reads as `init()` leaves it. -/
theorem Memory.read_below {lo : Nat} {m : Memory} (h : Memory.wfFrom lo m = true) {d : Nat} (hd : d < lo) :
    Memory.read m d = Memory.resetByte d := by
  induction m generalizing lo with
  | nil => rfl
  | cons p m ih =>
    obtain ⟨h1, -, -, h2⟩ := Memory.wfFrom_cons.mp h
    simpa [Memory.read, show d ≠ p.1 by omega] using ih h2 (by omega)

/-- A write leaves every other address as it reads, whatever the memory. -/
theorem Memory.read_write_ne (m : Memory) {a c : Nat} (b : Byte) (h : c ≠ a) :
    Memory.read (Memory.write m a b) c = Memory.read m c := by
  induction m with
  | nil => unfold Memory.write; split <;> simp [Memory.read, h]
  | cons p m ih =>
    obtain ⟨a', b'⟩ := p
    unfold Memory.write
    split
    · split <;> simp [Memory.read, h]
    · split
      · rename_i h2
        subst h2
        split <;> simp [Memory.read, h]
      · simp [Memory.read, ih]

/-- In a canonical memory a write is read back. -/
theorem Memory.read_write_self {lo : Nat} {m : Memory} (h : Memory.wfFrom lo m = true) (a : Nat) (b : Byte) :
    Memory.read (Memory.write m a b) a = b := by
  induction m generalizing lo with
  | nil => unfold Memory.write; split <;> simp_all [Memory.read]
  | cons p m ih =>
    obtain ⟨a', b'⟩ := p
    obtain ⟨-, -, -, hm⟩ := Memory.wfFrom_cons.mp h
    unfold Memory.write
    split
    · split
      · simp_all [Memory.read, show a ≠ a' by omega, Memory.read_below hm (d := a) (by omega)]
      · simp [Memory.read]
    · split
      · rename_i h2
        split
        · rename_i hb
          rw [hb, Memory.read_below hm (by omega)]
        · simp [Memory.read]
      · rename_i h2
        simpa [Memory.read, h2] using ih hm

/-- A write at an address of the machine keeps the canonical form. -/
theorem Memory.wfFrom_write {lo : Nat} {m : Memory} (h : Memory.wfFrom lo m = true) {a : Nat} (hlo : lo ≤ a)
    (ha : a < Config.memSize) (b : Byte) : Memory.wfFrom lo (Memory.write m a b) = true := by
  induction m generalizing lo with
  | nil =>
    unfold Memory.write
    split
    · exact h
    · exact Memory.wfFrom_cons.mpr ⟨hlo, ha, by assumption, rfl⟩
  | cons p m ih =>
    obtain ⟨a', b'⟩ := p
    obtain ⟨h1, h2, h3, h4⟩ := Memory.wfFrom_cons.mp h
    unfold Memory.write
    split
    · split
      · exact h
      · exact Memory.wfFrom_cons.mpr ⟨hlo, ha, by assumption, Memory.wfFrom_cons.mpr ⟨by omega, h2, h3, h4⟩⟩
    · split
      · rename_i h5
        subst h5
        split
        · exact Memory.wfFrom_mono h4 (by omega)
        · exact Memory.wfFrom_cons.mpr ⟨hlo, ha, by assumption, h4⟩
      · exact Memory.wfFrom_cons.mpr ⟨h1, h2, h3, ih h4 (by omega)⟩

/-- A write keeps the canonical form. -/
theorem Memory.wf_write {m : Memory} (h : m.wf = true) {a : Nat} (ha : a < Config.memSize) (b : Byte) :
    Memory.wf (Memory.write m a b) = true :=
  Memory.wfFrom_write h (Nat.zero_le a) ha b

/-! ### Lists of writes -/

@[simp] theorem Memory.writeAll_nil (m : Memory) : Memory.writeAll m [] = m := rfl

@[simp] theorem Memory.writeAll_cons (m : Memory) (p : Nat × Byte) (l : List (Nat × Byte)) :
    Memory.writeAll m (p :: l) = Memory.writeAll (Memory.write m p.1 p.2) l := rfl

/-- A list of writes at addresses of the machine keeps the canonical form. -/
theorem Memory.wf_writeAll {m : Memory} (h : m.wf = true) {l : List (Nat × Byte)}
    (hl : ∀ p ∈ l, p.1 < Config.memSize) : Memory.wf (Memory.writeAll m l) = true := by
  induction l generalizing m with
  | nil => exact h
  | cons p l ih => exact ih (Memory.wf_write h (hl p (by simp)) p.2) fun q hq => hl q (by simp [hq])

/-- A list of writes leaves every address it does not name as it reads. -/
theorem Memory.read_writeAll_of_notMem (m : Memory) {l : List (Nat × Byte)} {c : Nat} (hc : ∀ p ∈ l, p.1 ≠ c) :
    Memory.read (Memory.writeAll m l) c = Memory.read m c := by
  induction l generalizing m with
  | nil => rfl
  | cons p l ih =>
    rw [Memory.writeAll_cons, ih _ fun q hq => hc q (by simp [hq]), Memory.read_write_ne m p.2 (hc p (by simp)).symm]

/-- Writes at distinct addresses are all read back. -/
theorem Memory.read_writeAll_of_mem {m : Memory} (h : m.wf = true) {l : List (Nat × Byte)}
    (hl : ∀ p ∈ l, p.1 < Config.memSize) (hd : l.Pairwise fun p q => p.1 ≠ q.1) {p : Nat × Byte} (hp : p ∈ l) :
    Memory.read (Memory.writeAll m l) p.1 = p.2 := by
  induction l generalizing m with
  | nil => simp at hp
  | cons q l ih =>
    rw [List.pairwise_cons] at hd
    rw [Memory.writeAll_cons]
    rcases List.mem_cons.mp hp with rfl | hp'
    · rw [Memory.read_writeAll_of_notMem _ fun r hr => (hd.1 r hr).symm, Memory.read_write_self h]
    · exact ih (Memory.wf_write h (hl q (by simp)) q.2) (fun r hr => hl r (by simp [hr])) hd.2 hp'

/-- At reset the memory is in canonical form. -/
theorem State.reset_mem_wf : State.reset.mem.wf = true := rfl

/-! ### Bytes laid out from an address on -/

/-- The cells of bytes laid out from `a` on: byte `j` at `a + j`. -/
theorem mem_cellsFrom {a : Nat} {bytes : List Byte} {p : Nat × Byte} :
    p ∈ cellsFrom a bytes ↔ ∃ j, ∃ h : j < bytes.length, p = (a + j, bytes[j]) := by
  induction bytes generalizing a with
  | nil => simp [cellsFrom]
  | cons b bytes ih =>
    simp only [cellsFrom, List.mem_cons, ih]
    constructor
    · rintro (rfl | ⟨j, h, rfl⟩)
      · exact ⟨0, by simp, by simp⟩
      · exact ⟨j + 1, by simpa using h, by simp [Nat.add_assoc, Nat.add_comm 1 j]⟩
    · rintro ⟨j, h, rfl⟩
      cases j with
      | zero => exact .inl (by simp)
      | succ j => exact .inr ⟨j, by simpa using h, by simp [Nat.add_assoc, Nat.add_comm 1 j]⟩

theorem cellsFrom_pairwise (a : Nat) (bytes : List Byte) : (cellsFrom a bytes).Pairwise fun p q => p.1 ≠ q.1 := by
  induction bytes generalizing a with
  | nil => simp [cellsFrom]
  | cons b bytes ih =>
    refine List.pairwise_cons.mpr ⟨fun q hq he => ?_, ih _⟩
    obtain ⟨j, hj, rfl⟩ := mem_cellsFrom.mp hq
    simp only at he
    omega

/-- Everything laying bytes out in memory does: the memory stays canonical, each byte is read back where it belongs, and
no other address reads otherwise than before. -/
theorem Memory.writeAll_cellsFrom {m : Memory} (hm : m.wf = true) {a : Nat} {bytes : List Byte}
    (h : a + bytes.length ≤ Config.memSize) :
    Memory.wf (Memory.writeAll m (cellsFrom a bytes)) = true ∧
    (∀ k, ∀ hk : k < bytes.length, Memory.read (Memory.writeAll m (cellsFrom a bytes)) (a + k) = bytes[k]) ∧
    ∀ c, c < a ∨ a + bytes.length ≤ c → Memory.read (Memory.writeAll m (cellsFrom a bytes)) c = Memory.read m c := by
  have hl : ∀ p ∈ cellsFrom a bytes, p.1 < Config.memSize := fun p hp => by
    obtain ⟨j, hj, rfl⟩ := mem_cellsFrom.mp hp
    simp only
    omega
  refine ⟨Memory.wf_writeAll hm hl, fun k hk => ?_, fun c hc => Memory.read_writeAll_of_notMem m fun p hp => ?_⟩
  · exact Memory.read_writeAll_of_mem hm hl (cellsFrom_pairwise a bytes) (mem_cellsFrom.mpr ⟨k, hk, rfl⟩)
  · obtain ⟨j, hj, rfl⟩ := mem_cellsFrom.mp hp
    simp only
    omega

/-! ### Equality -/

/-- Canonical memories that read alike are equal data. -/
theorem Memory.ext_of_wfFrom {m m' : Memory} {lo : Nat} (h : Memory.wfFrom lo m = true)
    (h' : Memory.wfFrom lo m' = true) (hr : ∀ a, Memory.read m a = Memory.read m' a) : m = m' := by
  induction m generalizing m' lo with
  | nil =>
    cases m' with
    | nil => rfl
    | cons p m' => exact absurd (by simpa [Memory.read] using (hr p.1).symm) (Memory.wfFrom_cons.mp h').2.2.1
  | cons p m ih =>
    obtain ⟨a, b⟩ := p
    obtain ⟨-, -, hb, h3⟩ := Memory.wfFrom_cons.mp h
    cases m' with
    | nil => exact absurd (by simpa [Memory.read] using hr a) hb
    | cons p' m' =>
      obtain ⟨a', b'⟩ := p'
      obtain ⟨-, -, hb', h3'⟩ := Memory.wfFrom_cons.mp h'
      obtain hl | rfl | hl := Nat.lt_trichotomy a a'
      · have e := hr a
        have h4 := Memory.wfFrom_cons.mpr ⟨Nat.le_refl a', (Memory.wfFrom_cons.mp h').2.1, hb', h3'⟩
        rw [Memory.read_below h4 hl] at e
        exact absurd (by simpa [Memory.read] using e) hb
      · have e : b = b' := by simpa [Memory.read] using hr a
        subst e
        refine congrArg _ (ih h3 h3' fun c => ?_)
        by_cases hc : c = a
        · subst hc
          rw [Memory.read_below h3 (Nat.lt_succ_self _), Memory.read_below h3' (Nat.lt_succ_self _)]
        · simpa [Memory.read, hc] using hr c
      · have e := hr a'
        have h4 := Memory.wfFrom_cons.mpr ⟨Nat.le_refl a, (Memory.wfFrom_cons.mp h).2.1, hb, h3⟩
        rw [Memory.read_below h4 hl] at e
        exact absurd (by simpa [Memory.read] using e.symm) hb'

/-! ### Transfers through `I` -/

/-- A byte inside the checked range lies in the machine's memory (R45, R46). -/
theorem State.dataAddr_lt {s : State} {n k : Nat} (h : s.dataInRange n = true) (hk : k < n) :
    s.dataAddr k < Config.memSize := by
  simp only [State.dataInRange, Bool.or_eq_true, beq_iff_eq, decide_eq_true_eq] at h
  unfold State.dataAddr
  split
  · exact Nat.mod_lt _ (by decide)
  · rcases h with (h | h) | h
    · contradiction
    · omega
    · rw [Config.memSize]; omega

/-- Two bytes of one transfer lie at two addresses. -/
theorem State.dataAddr_inj {s : State} {j k : Nat} (hj : j < Config.memSize) (hk : k < Config.memSize)
    (h : s.dataAddr j = s.dataAddr k) : j = k := by
  simp only [State.dataAddr, Config.memSize] at *
  split at h <;> omega

/-- The cells of a store: byte `j` of the list at the address of byte `k + j`. -/
theorem State.mem_dataCells {s : State} {k : Nat} {bytes : List Byte} {p : Nat × Byte} :
    p ∈ s.dataCells k bytes ↔ ∃ j, ∃ h : j < bytes.length, p = (s.dataAddr (k + j), bytes[j]) := by
  induction bytes generalizing k with
  | nil => simp [State.dataCells]
  | cons b bytes ih =>
    simp only [State.dataCells, List.mem_cons, ih]
    constructor
    · rintro (rfl | ⟨j, h, rfl⟩)
      · exact ⟨0, by simp, by simp⟩
      · exact ⟨j + 1, by simpa using h, by simp [Nat.add_assoc, Nat.add_comm 1 j]⟩
    · rintro ⟨j, h, rfl⟩
      cases j with
      | zero => exact .inl (by simp)
      | succ j => exact .inr ⟨j, by simpa using h, by simp [Nat.add_assoc, Nat.add_comm 1 j]⟩

theorem State.dataCells_pairwise {s : State} {k : Nat} {bytes : List Byte}
    (h : k + bytes.length ≤ Config.memSize) : (s.dataCells k bytes).Pairwise fun p q => p.1 ≠ q.1 := by
  induction bytes generalizing k with
  | nil => simp [State.dataCells]
  | cons b bytes ih =>
    simp only [List.length_cons] at h
    refine List.pairwise_cons.mpr ⟨fun q hq he => ?_, ih (by omega)⟩
    obtain ⟨j, hj, rfl⟩ := State.mem_dataCells.mp hq
    have := State.dataAddr_inj (by omega) (by omega) he
    omega

/-- Everything a load through `I` can do (R45, R46): the bytes, lowest address first, or the one fault. -/
theorem State.readData_eq (s : State) (n : Nat) :
    s.readData n = if s.dataInRange n then .ok ((List.range n).map fun k => Memory.read s.mem (s.dataAddr k))
      else .error .outOfRangeMemoryAccess := rfl

/-- Everything a store through `I` can do (R45, R46): in range it writes `MEM` alone, each byte of it where it belongs
and no other; out of range it is the one fault. -/
theorem State.writeData_cases (s : State) (bytes : List Byte) :
    (s.dataInRange bytes.length = true ∧ ∃ m, s.writeData bytes = .ok { s with mem := m } ∧
      (s.mem.wf = true → m.wf = true) ∧
      (∀ a, (∀ k < bytes.length, a ≠ s.dataAddr k) → Memory.read m a = Memory.read s.mem a) ∧
      (s.mem.wf = true → bytes.length ≤ Config.memSize →
        ∀ k, ∀ h : k < bytes.length, Memory.read m (s.dataAddr k) = bytes[k])) ∨
    (s.dataInRange bytes.length = false ∧ s.writeData bytes = .error .outOfRangeMemoryAccess) := by
  by_cases hr : s.dataInRange bytes.length = true
  · refine .inl ⟨hr, Memory.writeAll s.mem (s.dataCells 0 bytes), by simp [State.writeData, hr], ?_, ?_, ?_⟩
    · intro hw
      refine Memory.wf_writeAll hw fun p hp => ?_
      obtain ⟨j, hj, rfl⟩ := State.mem_dataCells.mp hp
      simpa using State.dataAddr_lt hr hj
    · intro a ha
      refine Memory.read_writeAll_of_notMem _ fun p hp => ?_
      obtain ⟨j, hj, rfl⟩ := State.mem_dataCells.mp hp
      simpa using (ha j hj).symm
    · intro hw hlen k hk
      refine Memory.read_writeAll_of_mem hw (fun p hp => ?_) (State.dataCells_pairwise (by omega))
        (p := (s.dataAddr k, bytes[k])) (State.mem_dataCells.mpr ⟨k, hk, by simp⟩)
      obtain ⟨j, hj, rfl⟩ := State.mem_dataCells.mp hp
      simpa using State.dataAddr_lt hr hj
  · exact .inr ⟨by simpa using hr, by simp [State.writeData, hr]⟩

end Sys2Proof.Machine
end

