-- ==== Sys2Proof/Laws/Font.lean ====
section
/-! SUPPORT. The font table, whatever its fifteen open glyphs: 80 bytes, glyph 5 fixed, and the memory `init()`
leaves. -/

namespace Sys2Proof.Machine

/-- Every font has 80 bytes (R31). -/
@[simp] theorem Font.bytes_length (f : Font) : f.bytes.length = 80 := by
  simp [Font.bytes, Font.glyphs]

/-- In every font the five bytes from offset 25 on are the glyph 5 of the source (R31). -/
theorem Font.bytes_five (f : Font) : (f.bytes.drop 25).take 5 = glyphFive.toList := by
  simp [Font.bytes, Font.glyphs]

/-- Everything installing a font does (R250): the canonical memory that holds its bytes at `0x050` and 0 elsewhere. -/
theorem installFont_spec (f : Font) :
    (installFont f).wf = true ∧
    (∀ k, ∀ hk : k < f.bytes.length, Memory.read (installFont f) (0x050 + k) = f.bytes[k]) ∧
    ∀ a, a < 0x050 ∨ 0x0A0 ≤ a → Memory.read (installFont f) a = 0 := by
  obtain ⟨h1, h2, h3⟩ := Memory.writeAll_cellsFrom (m := []) rfl (a := Config.fontOffset) (bytes := f.bytes)
    (by simp [Config.fontOffset, Config.memSize])
  refine ⟨h1, h2, fun a ha => (h3 a ?_).trans ?_⟩
  · simp only [Font.bytes_length, Config.fontOffset]
    omega
  · unfold Memory.read Memory.resetByte
    by_cases h : Config.fontOffset ≤ a
    · rw [if_pos h]
      refine List.getD_eq_default _ _ ?_
      rw [Font.bytes_length]
      simp only [Config.fontOffset] at *
      omega
    · rw [if_neg h]

/-- Installing the default font lists nothing: it is what an unlisted address reads as. -/
theorem installFont_default : installFont defaultFont = [] := by decide +kernel

end Sys2Proof.Machine
end

