-- ==== Sys2Proof/Laws/Ops.lean ====
section
/-! SUPPORT. One lemma per shared operation that says everything it can do. -/

namespace Sys2Proof.Machine

/-! ### The return stack -/

/-- A push below the capacity (R85). -/
theorem State.push_of_lt {s : State} (w : Word) (h : s.sp.val < 16) :
    s.push w = .ok { s with stack := s.stack.set s.sp.val w h, sp := ⟨s.sp.val + 1, Nat.succ_lt_succ h⟩ } := by
  simp [State.push, h]

/-- A push on a full stack (R221). -/
theorem State.push_of_full {s : State} (w : Word) (h : s.sp.val = 16) : s.push w = .error .stackOverflow := by
  simp [State.push, h]

/-- A pop off a stack that is not empty (R83). -/
theorem State.pop_of_pos {s : State} (h : s.sp.val ≠ 0) :
    s.pop = .ok (s.stack[s.sp.val - 1]'(by omega), { s with sp := ⟨s.sp.val - 1, by omega⟩ }) := by
  simp [State.pop, h]

/-- A pop off an empty stack (R222). -/
theorem State.pop_of_empty {s : State} (h : s.sp.val = 0) : s.pop = .error .stackUnderflow := by
  simp [State.pop, h]

/-! ### Fetch -/

/-- A fetch up to `0xFFE` (R80). -/
theorem State.fetch_of_le {s : State} (h : s.pc.toNat ≤ 0xFFE) :
    s.fetch = .ok (wordOfBytes (Memory.read s.mem s.pc.toNat) (Memory.read s.mem (s.pc.toNat + 1))) := by
  simp [State.fetch, h]

/-- A fetch above `0xFFE` (R80). -/
theorem State.fetch_of_gt {s : State} (h : 0xFFE < s.pc.toNat) : s.fetch = .error .outOfRangeMemoryAccess := by
  simp [State.fetch, Nat.not_le.mpr h]

/-! ### Bulk transfers -/

@[simp] theorem bcdDigits_length (b : Byte) : (bcdDigits b).length = 3 := rfl

@[simp] theorem State.bulkBytes_length (s : State) (x : Nibble) : (s.bulkBytes x).length = bulkLength x := by
  simp [State.bulkBytes]

theorem State.bulkBytes_getElem (s : State) (x : Nibble) (k : Nat) (h : k < (s.bulkBytes x).length) :
    (s.bulkBytes x)[k] = s.getV (BitVec.ofNat 4 k) := by
  simp [State.bulkBytes]

theorem bulkLength_le (x : Nibble) : bulkLength x ≤ 16 := x.isLt

/-- `setBulk` writes the register file alone. -/
theorem State.setBulk_eq (s : State) (k : Nat) (bytes : List Byte) :
    s.setBulk k bytes = { s with v := (s.setBulk k bytes).v } := by
  induction bytes generalizing s k with
  | nil => rfl
  | cons b bytes ih =>
    rw [State.setBulk, ih]
    rfl

/-- Everything `setBulk` does to the registers: those from `k` on receive one byte each, the others nothing (R127). -/
theorem State.getV_setBulk (s : State) (k : Nat) (bytes : List Byte) (h : k + bytes.length ≤ 16) (r : Nibble) :
    (s.setBulk k bytes).getV r =
      if hr : k ≤ r.toNat ∧ r.toNat < k + bytes.length then bytes[r.toNat - k] else s.getV r := by
  induction bytes generalizing s k with
  | nil =>
    rw [dif_neg (by simp only [List.length_nil]; omega)]
    rfl
  | cons b bytes ih =>
    simp only [List.length_cons] at h ⊢
    rw [State.setBulk, ih _ _ (by omega)]
    by_cases hk : r.toNat = k
    · have hrk : r = BitVec.ofNat 4 k := by
        apply BitVec.eq_of_toNat_eq
        simp [hk, Nat.mod_eq_of_lt (show k < 16 by omega)]
      rw [dif_neg (by omega), dif_pos (by omega), State.getV_setV, if_pos hrk]
      simp [hk]
    · have hrk : r ≠ BitVec.ofNat 4 k := by
        rintro rfl
        simp [Nat.mod_eq_of_lt (show k < 16 by omega)] at hk
      by_cases hr : k + 1 ≤ r.toNat ∧ r.toNat < k + 1 + bytes.length
      · rw [dif_pos hr, dif_pos (by omega)]
        simp [show r.toNat - k = (r.toNat - (k + 1)) + 1 by omega]
      · rw [dif_neg hr, dif_neg (by omega), State.getV_setV, if_neg hrk]

/-! ### The keypad -/

/-- `firstKey` is the smallest index of a pressed key (R184). -/
theorem State.firstKey_eq_some {s : State} {k : Nibble} :
    s.firstKey = some k ↔ s.getKey k = true ∧ ∀ j : Nibble, j.toNat < k.toNat → s.getKey j = false := by
  simp only [State.firstKey, List.find?_eq_some_iff_getElem, List.length_map, List.length_range, List.getElem_map,
    List.getElem_range, Bool.not_eq_true']
  refine and_congr_right fun _ => ⟨?_, fun h => ⟨k.toNat, k.isLt, by simp, fun j hj => h _ ?_⟩⟩
  · rintro ⟨i, hi, rfl, h⟩ j hj
    have hi' : j.toNat < i := by simpa [Nat.mod_eq_of_lt hi] using hj
    simpa using h j.toNat hi'
  · have := k.isLt
    simp only [BitVec.toNat_ofNat]
    omega

/-- No key is found iff none is pressed (R184). -/
theorem State.firstKey_eq_none {s : State} : s.firstKey = none ↔ ∀ k, s.getKey k = false := by
  simp only [State.firstKey, List.find?_eq_none, List.mem_map, List.mem_range, Bool.not_eq_true]
  exact ⟨fun h k => h k ⟨k.toNat, k.isLt, by simp⟩, fun h k _ => h k⟩

end Sys2Proof.Machine
end

