-- ==== Sys2Proof/Laws/PerInstr.lean ====
section
/-! SUPPORT. The family `EncodesItsRow`: the encoder's word of every instruction, whatever its operands, matches the
instruction's row of R65. -/

namespace Sys2Proof.Laws

theorem packA_row (p : Nibble) (a : Addr) : packA p a &&& 0xF000 = packA p 0 :=
  (and_F000_eq_iff _ p).mpr (by simp)

theorem packXK_row (p x : Nibble) (k : Byte) : packXK p x k &&& 0xF0FF = packXK p 0 k :=
  (and_F0FF_eq_iff _ p k).mpr (by simp)

theorem packXYN_row (p x y n : Nibble) : packXYN p x y n &&& 0xF00F = packXYN p 0 0 n :=
  (and_F00F_eq_iff _ p n).mpr (by simp)

/-- Format `XK` and the formats whose mask is the prefix alone. -/
theorem packXK_prefix_row (p x : Nibble) (k : Byte) : packXK p x k &&& 0xF000 = packA p 0 :=
  (and_F000_eq_iff _ p).mpr (by simp)

/-- `encode i` is a word of `i`'s row. -/
def EncodesItsRow.Statement (i : Instr) : Prop := encode i &&& (opcodeRow i).1 = (opcodeRow i).2

namespace EncodesItsRow

theorem cls (ign : Nibble) : Statement (.cls ign) := packXK_row 0x0 ign 0xE0
theorem ret (ign : Nibble) : Statement (.ret ign) := packXK_row 0x0 ign 0xEE
theorem jpAddr (nnn : Addr) : Statement (.jpAddr nnn) := packA_row 0x1 nnn
theorem callAddr (nnn : Addr) : Statement (.callAddr nnn) := packA_row 0x2 nnn
theorem seVxByte (x : Nibble) (kk : Byte) : Statement (.seVxByte x kk) := packXK_prefix_row 0x3 x kk
theorem sneVxByte (x : Nibble) (kk : Byte) : Statement (.sneVxByte x kk) := packXK_prefix_row 0x4 x kk
theorem seVxVy (x y ign : Nibble) : Statement (.seVxVy x y ign) := packXK_prefix_row 0x5 x (y ++ ign)
theorem ldVxByte (x : Nibble) (kk : Byte) : Statement (.ldVxByte x kk) := packXK_prefix_row 0x6 x kk
theorem addVxByte (x : Nibble) (kk : Byte) : Statement (.addVxByte x kk) := packXK_prefix_row 0x7 x kk
theorem ldVxVy (x y : Nibble) : Statement (.ldVxVy x y) := packXYN_row 0x8 x y 0x0
theorem orVxVy (x y : Nibble) : Statement (.orVxVy x y) := packXYN_row 0x8 x y 0x1
theorem andVxVy (x y : Nibble) : Statement (.andVxVy x y) := packXYN_row 0x8 x y 0x2
theorem xorVxVy (x y : Nibble) : Statement (.xorVxVy x y) := packXYN_row 0x8 x y 0x3
theorem addVxVy (x y : Nibble) : Statement (.addVxVy x y) := packXYN_row 0x8 x y 0x4
theorem subVxVy (x y : Nibble) : Statement (.subVxVy x y) := packXYN_row 0x8 x y 0x5
theorem shrVx (x ign : Nibble) : Statement (.shrVx x ign) := packXYN_row 0x8 x ign 0x6
theorem subnVxVy (x y : Nibble) : Statement (.subnVxVy x y) := packXYN_row 0x8 x y 0x7
theorem shlVx (x ign : Nibble) : Statement (.shlVx x ign) := packXYN_row 0x8 x ign 0xE
theorem sneVxVy (x y ign : Nibble) : Statement (.sneVxVy x y ign) := packXK_prefix_row 0x9 x (y ++ ign)
theorem ldIAddr (nnn : Addr) : Statement (.ldIAddr nnn) := packA_row 0xA nnn
theorem jpV0Addr (nnn : Addr) : Statement (.jpV0Addr nnn) := packA_row 0xB nnn
theorem rndVxByte (x : Nibble) (kk : Byte) : Statement (.rndVxByte x kk) := packXK_prefix_row 0xC x kk
theorem drwVxVyN (x y n : Nibble) : Statement (.drwVxVyN x y n) := packXK_prefix_row 0xD x (y ++ n)
theorem skpVx (x : Nibble) : Statement (.skpVx x) := packXK_row 0xE x 0x9E
theorem sknpVx (x : Nibble) : Statement (.sknpVx x) := packXK_row 0xE x 0xA1
theorem ldVxDt (x : Nibble) : Statement (.ldVxDt x) := packXK_row 0xF x 0x07
theorem ldVxK (x : Nibble) : Statement (.ldVxK x) := packXK_row 0xF x 0x0A
theorem ldDtVx (x : Nibble) : Statement (.ldDtVx x) := packXK_row 0xF x 0x15
theorem ldStVx (x : Nibble) : Statement (.ldStVx x) := packXK_row 0xF x 0x18
theorem addIVx (x : Nibble) : Statement (.addIVx x) := packXK_row 0xF x 0x1E
theorem ldFVx (x : Nibble) : Statement (.ldFVx x) := packXK_row 0xF x 0x29
theorem ldBVx (x : Nibble) : Statement (.ldBVx x) := packXK_row 0xF x 0x33
theorem ldMemVx (x : Nibble) : Statement (.ldMemVx x) := packXK_row 0xF x 0x55
theorem ldVxMem (x : Nibble) : Statement (.ldVxMem x) := packXK_row 0xF x 0x65

end EncodesItsRow

end Sys2Proof.Laws
end

