-- ==== Sys2Proof/Laws/Step.lean ====
section
/-! SUPPORT. Everything one step can do. -/

namespace Sys2Proof.Machine

/-- A meaning that ends with a fault takes the shared operation. -/
@[simp] theorem raise_eq (f : Fault) : raise f = .fault f := rfl

/-- The instruction cycle on a word that decodes. -/
theorem runWord_of_ok {w : Word} {i : Instr} (h : decodeWord w = .ok i) (s : State) :
    runWord w s = exec i s.advancePc := by simp [runWord, h]

/-- The instruction cycle on an unrecognized word: the pre-increment alone (R68). -/
theorem runWord_of_error {w : Word} {e : DecodeError} (h : decodeWord w = .error e) (s : State) :
    runWord w s = .next s.advancePc := by
  cases e
  simp [runWord, h, execUnrecognized]

/-- Everything a step can do (R82): poll the keypad; fault at the fetch; execute the instruction fetched; pass over an
unrecognized word. -/
theorem step_cases (s : State) :
    (∃ r, s.mode = .waitingForKey r ∧ step s = keyPoll r s) ∨
    (s.mode = .running ∧ 0xFFE < s.pc.toNat ∧ step s = .fault .outOfRangeMemoryAccess) ∨
    (∃ w i, s.mode = .running ∧ s.fetch = .ok w ∧ decodeWord w = .ok i ∧ step s = exec i s.advancePc) ∨
    (∃ w e, s.mode = .running ∧ s.fetch = .ok w ∧ decodeWord w = .error e ∧ step s = .next s.advancePc) := by
  cases hm : s.mode with
  | waitingForKey r => exact .inl ⟨r, rfl, by simp [step, hm]⟩
  | running =>
    by_cases hp : s.pc.toNat ≤ 0xFFE
    · have hf := State.fetch_of_le hp
      cases hd : decodeWord (wordOfBytes (Memory.read s.mem s.pc.toNat) (Memory.read s.mem (s.pc.toNat + 1))) with
      | ok i => exact .inr (.inr (.inl ⟨_, i, rfl, hf, hd, by simp [step, hm, hf, runWord_of_ok hd]⟩))
      | error e => exact .inr (.inr (.inr ⟨_, e, rfl, hf, hd, by simp [step, hm, hf, runWord_of_error hd]⟩))
    · have hp' : 0xFFE < s.pc.toNat := by omega
      exact .inr (.inl ⟨rfl, hp', by simp [step, hm, State.fetch_of_gt hp']⟩)

end Sys2Proof.Machine
end

