-- ==== Sys2Proof/Tests/Slice0.lean ====
section
/-! SUPPORT. Small tests. Expected results are the spec's own: the numbers in the comments (F1, A11, ..) are those of
spec/95_test_vectors.md, and every word is written out from the encoding in spec/30_encoding.md and the rule named. -/

set_option Elab.async false

namespace Sys2Proof.Tests

open Sys2Proof.Machine Sys2Proof.Safety

/-! ## Well-formedness (R66): an ill-formed term for each check is refused -/

theorem test_wellFormed_accepts : ([.cls 0, .ret 0, .seVxVy 1 2 0, .sneVxVy 1 2 0, .shrVx 1 0, .shlVx 1 0,
    .drwVxVyN 0xF 0xF 0xF, .jpAddr 0xFFF, .ldVxMem 0xF] : List Instr).all (·.wellFormed) = true := by decide

theorem test_wellFormed_refuses_cls : (Instr.cls 0xA).wellFormed = false := by decide
theorem test_wellFormed_refuses_ret : (Instr.ret 3).wellFormed = false := by decide
theorem test_wellFormed_refuses_seVxVy : (Instr.seVxVy 0xA 0xB 7).wellFormed = false := by decide
theorem test_wellFormed_refuses_sneVxVy : (Instr.sneVxVy 0xA 0xB 0xF).wellFormed = false := by decide
theorem test_wellFormed_refuses_shrVx : (Instr.shrVx 1 2).wellFormed = false := by decide
theorem test_wellFormed_refuses_shlVx : (Instr.shlVx 1 2).wellFormed = false := by decide

/-! ## Decoding: one word for every constructor, written out from its row of R65 -/

theorem test_decode_cls : decodeWord 0x00E0 = .ok (.cls 0) := by decide
theorem test_decode_cls_ignored : decodeWord 0x0AE0 = .ok (.cls 0xA) := by decide
theorem test_decode_ret : decodeWord 0x00EE = .ok (.ret 0) := by decide
theorem test_decode_jpAddr : decodeWord 0x1ABC = .ok (.jpAddr 0xABC) := by decide
theorem test_decode_callAddr : decodeWord 0x2ABC = .ok (.callAddr 0xABC) := by decide
theorem test_decode_seVxByte : decodeWord 0x3A07 = .ok (.seVxByte 0xA 0x07) := by decide
theorem test_decode_sneVxByte : decodeWord 0x4A07 = .ok (.sneVxByte 0xA 0x07) := by decide
theorem test_decode_seVxVy : decodeWord 0x5AB7 = .ok (.seVxVy 0xA 0xB 7) := by decide
theorem test_decode_ldVxByte : decodeWord 0x6A12 = .ok (.ldVxByte 0xA 0x12) := by decide
theorem test_decode_addVxByte : decodeWord 0x7A10 = .ok (.addVxByte 0xA 0x10) := by decide
theorem test_decode_ldVxVy : decodeWord 0x8120 = .ok (.ldVxVy 1 2) := by decide
theorem test_decode_orVxVy : decodeWord 0x8121 = .ok (.orVxVy 1 2) := by decide
theorem test_decode_andVxVy : decodeWord 0x8122 = .ok (.andVxVy 1 2) := by decide
theorem test_decode_xorVxVy : decodeWord 0x8123 = .ok (.xorVxVy 1 2) := by decide
theorem test_decode_addVxVy : decodeWord 0x8F14 = .ok (.addVxVy 0xF 1) := by decide
theorem test_decode_subVxVy : decodeWord 0x8125 = .ok (.subVxVy 1 2) := by decide
theorem test_decode_shrVx : decodeWord 0x8126 = .ok (.shrVx 1 2) := by decide
theorem test_decode_subnVxVy : decodeWord 0x8127 = .ok (.subnVxVy 1 2) := by decide
theorem test_decode_shlVx : decodeWord 0x812E = .ok (.shlVx 1 2) := by decide
theorem test_decode_sneVxVy : decodeWord 0x9ABF = .ok (.sneVxVy 0xA 0xB 0xF) := by decide
theorem test_decode_ldIAddr : decodeWord 0xA123 = .ok (.ldIAddr 0x123) := by decide
theorem test_decode_jpV0Addr : decodeWord 0xB300 = .ok (.jpV0Addr 0x300) := by decide
theorem test_decode_rndVxByte : decodeWord 0xC30F = .ok (.rndVxByte 3 0x0F) := by decide
theorem test_decode_drwVxVyN : decodeWord 0xD125 = .ok (.drwVxVyN 1 2 5) := by decide
theorem test_decode_skpVx : decodeWord 0xE39E = .ok (.skpVx 3) := by decide
theorem test_decode_sknpVx : decodeWord 0xE3A1 = .ok (.sknpVx 3) := by decide
theorem test_decode_ldVxDt : decodeWord 0xF307 = .ok (.ldVxDt 3) := by decide
theorem test_decode_ldVxK : decodeWord 0xF50A = .ok (.ldVxK 5) := by decide
theorem test_decode_ldDtVx : decodeWord 0xF315 = .ok (.ldDtVx 3) := by decide
theorem test_decode_ldStVx : decodeWord 0xF318 = .ok (.ldStVx 3) := by decide
theorem test_decode_addIVx : decodeWord 0xF11E = .ok (.addIVx 1) := by decide
theorem test_decode_ldFVx : decodeWord 0xF229 = .ok (.ldFVx 2) := by decide
theorem test_decode_ldBVx : decodeWord 0xF433 = .ok (.ldBVx 4) := by decide
theorem test_decode_ldMemVx : decodeWord 0xF255 = .ok (.ldMemVx 2) := by decide
theorem test_decode_ldVxMem : decodeWord 0xF465 = .ok (.ldVxMem 4) := by decide

/-- 2.10: words of no row are refused by name. -/
theorem test_decode_unrecognized :
    ([0x0000, 0x0123, 0x00E1, 0x00FF, 0x8128, 0x812F, 0xE000, 0xE19F, 0xF000, 0xF108, 0xF1FF, 0xFFFF] : List Word).all
      (fun w => decide (decodeWord w = .error (.unrecognizedOpcode w))) = true := by decide

/-- The table's numbering: bit 0 is the least significant bit of the word (R8), and the high byte is fetched first. -/
theorem test_decodeTableWord : decodeTableWord 16 0x6A12 = some (.ldVxByte 0xA 0x12) ∧
    decodeTableWord 16 0xFFFF = none := by decide

/-! ## One step: a word at `0x200` (or at `pc`), run in the reset state changed by `pre` -/

/-- One step of the word `w` gives a next state, and `post` holds of it. -/
def runs (w : Nat) (pre : State → State) (post : State → Bool) : Bool :=
  match step ((pre State.reset).withFetchWord 16 w) with
  | .next t => post t
  | _ => false

/-- One step of the word `w` gives the fault `f`. -/
def faults (w : Nat) (pre : State → State) (f : Fault) : Bool :=
  match step ((pre State.reset).withFetchWord 16 w) with
  | .fault g => g == f
  | _ => false

/-- The reset state with bytes stored from address `a` on. -/
def withBytes (a : Nat) (bytes : List Byte) (s : State) : State :=
  { s with mem := Memory.writeAll s.mem (cellsFrom a bytes) }

/-- The `n` bytes at `a`. -/
def bytesAt (s : State) (a n : Nat) : List Byte := (List.range n).map fun k => Memory.read s.mem (a + k)

/-- `SP = n` and the stack slots `f 0`, `f 1`, .. -/
def withStack (n : Fin 17) (f : Nat → Word) (s : State) : State :=
  { s with sp := n, stack := Vector.ofFn fun k => f k.val }

/-- One pixel of the screen lit. -/
def lit (x : Fin 64) (y : Fin 32) (s : State) : State :=
  { s with fbc := { s.fbc with fb := s.fbc.fb.set y.val (s.fbc.fb[y.val].set x.val true) } }

/-- The screen's rows that are not all zero, in the row-hex of 95_test_vectors.md: column 0 the most significant bit. -/
def screen (s : State) : List (Nat × Nat) :=
  (List.finRange 32).filterMap fun y =>
    let n := (s.fbc.fb[y.val].toList).foldl (fun n b => 2 * n + b.toNat) 0
    if n = 0 then none else some (y.val, n)

/-- Every key up but those listed. -/
def withKeys (ks : List Nat) (s : State) : State := { s with key := Vector.ofFn fun k => decide (k.val ∈ ks) }

/-! ### Control flow and skips -/

theorem test_ret : runs 0x03EE (withStack 1 fun _ => 0x456)  -- F3
    (fun t => t.pc == 0x456 && t.sp == 0) = true := by decide +kernel
theorem test_ret_underflow : faults 0x00EE id .stackUnderflow = true := by decide +kernel  -- F2
theorem test_jpAddr : runs 0x1ABC id (fun t => t.pc == 0xABC) = true := by decide +kernel  -- F4
theorem test_callAddr : runs 0x2ABC (withStack 15 fun _ => 0)  -- F7
    (fun t => t.pc == 0xABC && t.sp == 16 && t.stack[15] == 0x202) = true := by decide +kernel
theorem test_callAddr_overflow :  -- F8
    faults 0x2ABC (withStack 16 fun k => BitVec.ofNat 16 (0x300 + k)) .stackOverflow = true := by decide +kernel
theorem test_jpV0Addr : runs 0xBFFF (·.setV 0 0xFF) (fun t => t.pc == 0x10FE) = true := by decide +kernel  -- F10
theorem test_seVxByte : runs 0x3A07 (·.setV 0xA 7) (fun t => t.pc == 0x204) = true := by decide +kernel  -- B1
theorem test_seVxByte_not : runs 0x3A07 (·.setV 0xA 8) (fun t => t.pc == 0x202) = true := by decide +kernel  -- B2
theorem test_sneVxByte : runs 0x4A07 (·.setV 0xA 8) (fun t => t.pc == 0x204) = true := by decide +kernel  -- B4
theorem test_sneVxByte_not : runs 0x4A07 (·.setV 0xA 7) (fun t => t.pc == 0x202) = true := by decide +kernel  -- B3
theorem test_seVxVy : runs 0x5AB7 (fun s => (s.setV 0xA 5).setV 0xB 5)  -- B7
    (fun t => t.pc == 0x204) = true := by decide +kernel
theorem test_seVxVy_not : runs 0x5AB0 (fun s => (s.setV 0xA 5).setV 0xB 6)  -- B6
    (fun t => t.pc == 0x202) = true := by decide +kernel
theorem test_sneVxVy : runs 0x9ABF (fun s => (s.setV 0xA 5).setV 0xB 6)  -- B10
    (fun t => t.pc == 0x204) = true := by decide +kernel
theorem test_sneVxVy_not : runs 0x9AA0 (·.setV 0xA 9) (fun t => t.pc == 0x202) = true := by decide +kernel  -- B12

/-! ### Fetch -/

theorem test_fetch_odd : runs 0x6A12 (·.setPc 0x201)  -- F14
    (fun t => t.getV 0xA == 0x12 && t.pc == 0x203) = true := by decide +kernel
theorem test_fetch_last : runs 0x6000 (·.setPc 0xFFE) (fun t => t.pc == 0x1000) = true := by decide +kernel  -- F11
theorem test_fetch_out_of_range :  -- F12
    step (State.reset.setPc 0xFFF) = .fault .outOfRangeMemoryAccess := by rfl
/-- 2.10 and H4: an unrecognized word advances `pc` and changes nothing else. -/
theorem test_unrecognized : step State.reset = .next (State.reset.setPc 0x202) := by rfl

/-! ### Arithmetic and logic -/

theorem test_ldVxByte : runs 0x6FFF id (fun t => t.getV 0xF == 0xFF) = true := by decide +kernel  -- A2
theorem test_addVxByte : runs 0x7A10 (fun s => (s.setV 0xA 0xF8).setV 0xF 0x77)  -- A4
    (fun t => t.getV 0xA == 0x08 && t.getV 0xF == 0x77) = true := by decide +kernel
theorem test_addVxByte_F : runs 0x7F01 (·.setV 0xF 0xFF) (fun t => t.getV 0xF == 0) = true := by decide +kernel  -- A5
theorem test_ldVxVy : runs 0x8120 (fun s => (s.setV 1 1).setV 2 0x5A)  -- A6
    (fun t => t.getV 1 == 0x5A && t.getV 2 == 0x5A) = true := by decide +kernel
theorem test_orVxVy : runs 0x8121 (fun s => ((s.setV 1 0x0F).setV 2 0xF0).setV 0xF 7)  -- A7
    (fun t => t.getV 1 == 0xFF && t.getV 0xF == 7) = true := by decide +kernel
theorem test_andVxVy : runs 0x8122 (fun s => ((s.setV 1 0x3C).setV 2 0x0F).setV 0xF 7)  -- A8
    (fun t => t.getV 1 == 0x0C && t.getV 0xF == 7) = true := by decide +kernel
theorem test_xorVxVy : runs 0x8123 (fun s => ((s.setV 1 0xFF).setV 2 0x0F).setV 0xF 7)  -- A9
    (fun t => t.getV 1 == 0xF0 && t.getV 0xF == 7) = true := by decide +kernel
theorem test_addVxVy : runs 0x8124 (fun s => (s.setV 1 0xFF).setV 2 0x01)  -- A11
    (fun t => t.getV 1 == 0 && t.getV 0xF == 1) = true := by decide +kernel
theorem test_addVxVy_F : runs 0x8F14 (fun s => (s.setV 0xF 0x10).setV 1 0x20)  -- A16
    (fun t => t.getV 0xF == 0) = true := by decide +kernel
theorem test_subVxVy : runs 0x8125 (fun s => (s.setV 1 3).setV 2 5)  -- A21
    (fun t => t.getV 1 == 0xFE && t.getV 0xF == 0) = true := by decide +kernel
theorem test_subVxVy_equal : runs 0x8125 (fun s => (s.setV 1 7).setV 2 7)  -- A22
    (fun t => t.getV 1 == 0 && t.getV 0xF == 1) = true := by decide +kernel
theorem test_subnVxVy : runs 0x8127 (fun s => (s.setV 1 5).setV 2 3)  -- A27
    (fun t => t.getV 1 == 0xFE && t.getV 0xF == 0) = true := by decide +kernel
theorem test_subnVxVy_F : runs 0x8F17 (fun s => (s.setV 0xF 2).setV 1 4)  -- A31
    (fun t => t.getV 0xF == 1) = true := by decide +kernel
theorem test_shrVx : runs 0x8126 (fun s => (s.setV 1 5).setV 2 0xFF)  -- A34
    (fun t => t.getV 1 == 2 && t.getV 0xF == 1 && t.getV 2 == 0xFF) = true := by decide +kernel
theorem test_shrVx_F : runs 0x8F06 (·.setV 0xF 2) (fun t => t.getV 0xF == 0) = true := by decide +kernel  -- A36
theorem test_shlVx : runs 0x812E (·.setV 1 0x81)  -- A41
    (fun t => t.getV 1 == 2 && t.getV 0xF == 1) = true := by decide +kernel
theorem test_shlVx_F : runs 0x8F0E (·.setV 0xF 0x40) (fun t => t.getV 0xF == 0) = true := by decide +kernel  -- A43

/-! ### Index register, memory transfers, random -/

theorem test_ldIAddr : runs 0xAFFF id (fun t => t.i == 0xFFF) = true := by decide +kernel  -- M2
/-- M4: with mask 0 the result is 0 whatever was drawn; nothing is asked of the free value. -/
theorem test_rndVxByte : step (State.reset.withFetchWord 16 0xC300) =
    .next { State.reset.withFetchWord 16 0xC300 with pc := 0x202, draws := 1 } := by
  have h : ∀ r : Byte, ({ (State.reset.withFetchWord 16 0xC300).advancePc with draws := 1 }).setV 3 (r &&& 0) =
      { State.reset.withFetchWord 16 0xC300 with pc := 0x202, draws := 1 } := by
    intro r
    rw [show r &&& 0 = 0 from BitVec.and_zero]
    decide +kernel
  exact congrArg Host.Outcome.next (h (Config.rndByte 0))
theorem test_addIVx_wrap : runs 0xF11E (fun s => (s.setI 0xFFFF).setV 1 2)  -- M11b
    (fun t => t.i == 1 && t.getV 0xF == 1) = true := by decide +kernel
theorem test_addIVx_edge : runs 0xFF1E (fun s => (s.setI 0xFFA).setV 0xF 5)  -- M11e
    (fun t => t.i == 0xFFF && t.getV 0xF == 0) = true := by decide +kernel
theorem test_ldFVx : runs 0xF229 (·.setV 2 0x15) (fun t => t.i == 0x69) = true := by decide +kernel  -- M15
theorem test_ldBVx : runs 0xF433 (fun s => (s.setV 4 0xC7).setI 0xFFD)  -- M24
    (fun t => bytesAt t 0xFFD 3 == [1, 9, 9] && t.i == 0xFFD) = true := by decide +kernel
theorem test_ldBVx_out_of_range : faults 0xF433 (fun s => (s.setV 4 0xC7).setI 0xFFE)  -- M25
    .outOfRangeMemoryAccess = true := by decide +kernel
theorem test_ldMemVx :  -- M27
    runs 0xF255 (fun s => { s.setI 0x400 with v := Vector.ofFn fun k => BitVec.ofNat 8 (0xA0 + k.val) })
      (fun t => bytesAt t 0x3FF 5 == [0, 0xA0, 0xA1, 0xA2, 0] && t.i == 0x400) = true := by decide +kernel
/-- R46, "ADDR_WRAP_COMPAT = true": the second and third byte of a store at `0xFFF` go to `0x000` and `0x001`. -/
theorem test_ldMemVx_wrap :
    runs 0xF255 (fun s => { s.setI 0xFFF with
        addrWrapCompat := true, v := Vector.ofFn fun k => BitVec.ofNat 8 (0xA0 + k.val) })
      (fun t => bytesAt t 0xFFF 1 == [0xA0] && bytesAt t 0 3 == [0xA1, 0xA2, 0]) = true := by decide +kernel
theorem test_ldVxMem :  -- M36
    runs 0xF265 (fun s => withBytes 0x300 [0x10, 0x11, 0x12, 0x13] { s.setI 0x300 with v := Vector.replicate 16 0xEE })
      (fun t => t.v == ⟨#[0x10, 0x11, 0x12, 0xEE, 0xEE, 0xEE, 0xEE, 0xEE, 0xEE, 0xEE, 0xEE, 0xEE, 0xEE, 0xEE, 0xEE,
        0xEE], rfl⟩) = true := by decide +kernel
theorem test_ldVxMem_out_of_range : faults 0xFF65 (·.setI 0xFF1) .outOfRangeMemoryAccess = true := by  -- M40
  decide +kernel

/-! ### Display -/

theorem test_cls : runs 0x0AE0 (fun s => lit 63 31 (lit 5 3 (s.setV 0xF 9)))  -- D3
    (fun t => screen t == [] && t.fbc.dirty && t.getV 0xF == 9) = true := by decide +kernel
theorem test_drwVxVyN_wraps : runs 0xD122 (fun s => withBytes 0x300 [0xFF, 0x81] ((s.setI 0x300).setV 2 0x1F))  -- D8
    (fun t => screen t == [(0, 0x8100000000000000), (31, 0xFF00000000000000)] && t.getV 0xF == 0 &&
      t.fbc.dirty) = true := by
  decide +kernel
theorem test_drwVxVyN_collides : runs 0xD121 (fun s => lit 0 0 (withBytes 0x300 [0xC0] (s.setI 0x300)))  -- D15
    (fun t => screen t == [(0, 0x4000000000000000)] && t.getV 0xF == 1) = true := by decide +kernel

/-! ### Timers -/

theorem test_ldVxDt : runs 0xFF07 (fun s => { s with tmr := { dt := 0x2A, st := 0 } })  -- T6
    (fun t => t.getV 0xF == 0x2A && t.tmr.dt == 0x2A) = true := by decide +kernel
theorem test_ldDtVx : runs 0xF315 (fun s => { s.setV 3 0x3C with tmr := { dt := 0, st := 5 } })  -- T7
    (fun t => t.tmr.dt == 0x3C && t.tmr.st == 5) = true := by decide +kernel
theorem test_ldStVx : runs 0xF318 (fun s => { s.setV 3 0x3C with tmr := { dt := 0, st := 5 } })  -- T8
    (fun t => stOutput t.tmr == 0x3C && t.tmr.dt == 0) = true := by decide +kernel
/-- D28, `Draw(0, 0, [80])` twice with (0,0) lit: collision 1 and then 0, and the pixel is back. -/
theorem test_performBlock_draw :
    (performBlock (.draw 0 0 [0x80]) (lit 0 0 State.reset).block).2 = .bit true ∧
    (performBlock (.draw 0 0 [0x80]) (performBlock (.draw 0 0 [0x80]) (lit 0 0 State.reset).block).1).2 = .bit false ∧
    ((performBlockAll [.draw 0 0 [0x80], .draw 0 0 [0x80]] (lit 0 0 State.reset).block).1.pixel 0 0) = true := by
  decide +kernel
theorem test_tick : tick { dt := 1, st := 3 } = { dt := 0, st := 2 } := by decide  -- T2, first tick
theorem test_tick_floor : tick { dt := 0, st := 0 } = { dt := 0, st := 0 } := by decide  -- T4

/-! ### Keypad -/

theorem test_skpVx : runs 0xE39E (fun s => withKeys [7] (s.setV 3 0x17)) (fun t => t.pc == 0x204) = true := by  -- K6
  decide +kernel
theorem test_skpVx_not : runs 0xE39E (fun s => withKeys [6] (s.setV 3 7)) (fun t => t.pc == 0x202) = true := by  -- K3
  decide +kernel
theorem test_sknpVx : runs 0xE3A1 (·.setV 3 7) (fun t => t.pc == 0x204) = true := by decide +kernel  -- K5
theorem test_sknpVx_not : runs 0xE3A1 (fun s => withKeys [7] (s.setV 3 0xF7))  -- K7
    (fun t => t.pc == 0x202) = true := by
  decide +kernel
theorem test_ldVxK : runs 0xF50A (withKeys [3, 9])  -- K12, first step
    (fun t => t.mode == .waitingForKey 5 && t.pc == 0x200 && t.getV 5 == 0) = true := by decide +kernel

/-- A state that waits for a key for `V[5]` at its instruction, with the given keys down. -/
def waiting (ks : List Nat) : State :=
  withKeys ks { State.reset.withFetchWord 16 0xF50A with mode := .waitingForKey 5 }

theorem test_keyPoll : step (waiting [3, 9]) =  -- K12, second step
    .next { (waiting [3, 9]).setV 5 3 with pc := 0x202, mode := .running } := by rfl

/-! ### Reset, the host's operations, the parameter switches -/

theorem test_reset_glyphs : bytesAt State.reset 0x69 5 = [0xF0, 0x80, 0xF0, 0x10, 0xF0] ∧  -- S6, H7
    bytesAt State.reset 0x4F 1 = [0] ∧ bytesAt State.reset 0xA0 1 = [0] := by decide +kernel
/-- S1: exactly 80 bytes of the memory are nonzero after `init()`. -/
theorem test_reset_nonzero :
    ((List.range 0x200).filter fun a => decide (Memory.read State.reset.mem a ≠ 0)).length = 80 := by decide +kernel
theorem test_oversized : hostLoadProgram (List.replicate 3585 1) State.reset = .error .overSizedImage := by  -- H2
  decide +kernel
theorem test_takeDirty : perform .takeDirty State.reset = (State.reset, .flag false) := by decide +kernel  -- H6
theorem test_spriteClip_refused :  -- R152
    initWith { Config.defaultParams with spriteClip := true } = .error .spriteClip := by decide

/-- A machine whose fifteen open glyphs are blank. -/
def blankFontParams : Config.Params :=
  { Config.defaultParams with
    font := {
      below := Vector.replicate 5 (Vector.replicate 5 0)
      above := Vector.replicate 10 (Vector.replicate 5 0) } }

/-- R31, U22: another font can be configured, and its glyph 5 is the source's all the same. -/
theorem test_initWith_font :
    (match initWith blankFontParams with
      | .ok s => bytesAt s 0x64 15 == [0, 0, 0, 0, 0, 0xF0, 0x80, 0xF0, 0x10, 0xF0, 0, 0, 0, 0, 0]
      | .error _ => false) = true := by decide +kernel
theorem test_initWith_default : initWith Config.defaultParams = .ok State.reset := by decide +kernel  -- R6

/-! ## Witnesses: for each obligation with hypotheses, states and operands that meet all of them, at the boundary values
of each clause -/

/-- The reset state with the word `w` at `0x200`. -/
def placed (w : Nat) : State := State.reset.withFetchWord 16 w

/-- A part of the state is the same in a state as in itself. -/
theorem part_same_self (s : State) (p : Part) : p.same s s := by cases p <;> simp [Part.same]

/-- What `runs` says, as an equation. -/
theorem next_of_runs {w : Nat} {pre : State → State} {post : State → Bool} (h : runs w pre post = true) :
    ∃ t, step ((pre State.reset).withFetchWord 16 w) = .next t ∧ post t = true := by
  unfold runs at h
  split at h
  · exact ⟨_, by assumption, h⟩
  · contradiction

theorem witness_EncodeOfTheDecodedIsTheWord : ∃ w i, decodeWord w = .ok i := ⟨0x8124, .addVxVy 1 2, by decide⟩

theorem witness_WordDecodesIffItMatchesARow :
    ∃ (w : Word) (i j : Instr), decodeWord w = .ok i ∧ w &&& (opcodeRow i).1 = (opcodeRow i).2 ∧
      w &&& (opcodeRow j).1 = (opcodeRow j).2 ∧ i ≠ j :=
  ⟨0xF233, .ldBVx 2, .ldBVx 3, by decide⟩

/-- A word of each clause, each next to a recognized one. -/
theorem witness_UnrecognizedWordsAreExactlyThese :
    (prefixOf 0x00E1 = 0x0 ∧ kkOf 0x00E1 ∉ ([0xE0, 0xEE] : List Byte)) ∧
    (prefixOf 0x8128 = 0x8 ∧ nOf 0x8128 ∈ ([0x8, 0x9, 0xA, 0xB, 0xC, 0xD, 0xF] : List Nibble)) ∧
    (prefixOf 0xE1A0 = 0xE ∧ kkOf 0xE1A0 ∉ ([0x9E, 0xA1] : List Byte)) ∧
    (prefixOf 0xF108 = 0xF ∧ kkOf 0xF108 ∉ ([0x07, 0x0A, 0x15, 0x18, 0x1E, 0x29, 0x33, 0x55, 0x65] : List Byte)) := by
  decide

theorem witness_FetchIsBigEndianAndChecked :
    (State.reset.setPc 0xFFE).pc.toNat ≤ 0xFFE ∧
    (State.reset.setPc 0xFFF).mode = .running ∧ 0xFFE < (State.reset.setPc 0xFFF).pc.toNat := by decide

theorem witness_StepExecutesTheDecodedInstruction : ∃ (s : State) (i : Instr), s.mode = .running ∧ s.pc.toNat ≤ 0xFFE ∧
    decodeBytes (Memory.read s.mem s.pc.toNat) (Memory.read s.mem (s.pc.toNat + 1)) = .ok i :=
  ⟨placed 0x8124, .addVxVy 1 2, by decide +kernel⟩

theorem witness_UnrecognizedWordOnlyAdvancesPc : ∃ (s : State) (w : Word) (e : DecodeError), s.mode = .running ∧
    s.fetch = .ok w ∧ decodeWord w = .error e :=
  ⟨placed 0xE39F, 0xE39F, .unrecognizedOpcode 0xE39F, by decide +kernel⟩

/-- With no key down, and with the least of two keys down; the lowest and the highest key. -/
theorem witness_WaitingStepPollsTheKeypad :
    ((waiting []).mode = .waitingForKey 5 ∧ ∀ k : Nibble, (waiting []).getKey k = false) ∧
    ((waiting [3, 9]).mode = .waitingForKey 5 ∧ (waiting [3, 9]).getKey 3 = true ∧
      ∀ j : Nibble, j.toNat < (3 : Nibble).toNat → (waiting [3, 9]).getKey j = false) ∧
    ((waiting [0]).getKey 0 = true ∧ ∀ j : Nibble, j.toNat < (0 : Nibble).toNat → (waiting [0]).getKey j = false) ∧
    (waiting [15]).getKey 15 = true ∧
      ∀ j : Nibble, j.toNat < (15 : Nibble).toNat → (waiting [15]).getKey j = false := by decide +kernel

theorem witness_WaitWithoutAKeyGoesOn :
    (waiting []).mode = .waitingForKey 5 ∧ ∀ k : Nibble, (waiting []).getKey k = false := by decide +kernel

/-- Each clause at its first faulting value, and the depth changes of the second half. -/
theorem witness_StepFaultsExactlyThen :
    step (State.reset.setPc 0xFFF) = .fault .outOfRangeMemoryAccess ∧
    step (withStack 16 (fun _ => 0) (placed 0x2ABC)) = .fault .stackOverflow ∧
    step (placed 0x00EE) = .fault .stackUnderflow ∧
    step ((placed 0xD121).setI 0x1000) = .fault .outOfRangeMemoryAccess ∧
    step ((placed 0xF433).setI 0xFFE) = .fault .outOfRangeMemoryAccess ∧
    step ((placed 0xF255).setI 0xFFE) = .fault .outOfRangeMemoryAccess ∧
    step ((placed 0xF065).setI 0x1000) = .fault .outOfRangeMemoryAccess ∧
    (∃ t, exec (.callAddr 0xABC) State.reset = .next t ∧ State.reset.sp.val < t.sp.val) ∧
    ∃ t, exec (.ret 0) (withStack 1 (fun _ => 0x456) State.reset) = .next t ∧ t.sp.val < 1 :=
  ⟨rfl, rfl, rfl, rfl, rfl, rfl, rfl, ⟨_, rfl, by decide⟩, _, rfl, by decide⟩

theorem witness_FaultLeavesTheStateAndRepeats : ∃ (s : State) (f : Fault), step s = .fault f :=
  ⟨placed 0x00EE, .stackUnderflow, rfl⟩

theorem witness_RetPopsTheStackIntoPc :
    (withStack 1 (fun _ => 0x456) State.reset).sp.val ≠ 0 ∧ (withStack 16 (fun _ => 0x456) State.reset).sp.val ≠ 0 ∧
    State.reset.sp.val = 0 := by decide

theorem witness_CallPushesTheNextAddress :
    State.reset.sp.val < 16 ∧ (withStack 15 (fun _ => 0) State.reset).sp.val < 16 ∧
    (withStack 16 (fun _ => 0) State.reset).sp.val = 16 := by decide

theorem witness_RetAfterCallComesBack : ∃ (nnn : Addr) (s t u : State), s.sp.val < 16 ∧
    exec (.callAddr nnn) s = .next t ∧
    SameExcept [.v, .i, .pc, .mem, .fb, .dirty, .dt, .st, .key, .mode, .draws] t u :=
  ⟨0xABC, State.reset, _, _, by decide, rfl, fun p _ => part_same_self _ p⟩

theorem witness_KeySkips : ∃ (x : Nibble) (s : State) (k : Nibble), k.toNat = (s.getV x).toNat % 16 ∧ s.getV x = 0xF7 :=
  ⟨3, State.reset.setV 3 0xF7, 7, by decide⟩

/-- A register that is not the flag's: the premise on the result in AddRegistersWithCarry, SubtractWithNoBorrowFlag and
ShiftByOneIntoFlag. -/
theorem witness_results_outside_VF : ∃ x : Nibble, x ≠ 0xF := ⟨0xE, by decide⟩

/-- A canonical memory, each way to be in range at its last value, and the first value out of range. -/
theorem witness_StoreBcdDigits :
    State.reset.mem.wf = true ∧ { State.reset with addrWrapCompat := true }.addrWrapCompat = true ∧
    (State.reset.setI 0xFFD).i.toNat + 2 ≤ 0xFFF ∧
    (State.reset.setI 0xFFE).addrWrapCompat = false ∧ 0xFFF < (State.reset.setI 0xFFE).i.toNat + 2 := by decide

theorem witness_StoreRegisters :
    State.reset.mem.wf = true ∧ { State.reset with addrWrapCompat := true }.addrWrapCompat = true ∧
    (State.reset.setI 0xFF0).i.toNat + (0xF : Nibble).toNat ≤ 0xFFF ∧
    (State.reset.setI 0xFF1).addrWrapCompat = false ∧
    0xFFF < (State.reset.setI 0xFF1).i.toNat + (0xF : Nibble).toNat := by
  decide

theorem witness_LoadRegisters :
    { State.reset with addrWrapCompat := true }.addrWrapCompat = true ∧
    (State.reset.setI 0xFFF).i.toNat + (0x0 : Nibble).toNat ≤ 0xFFF ∧
    (State.reset.setI 0x1000).addrWrapCompat = false ∧
    0xFFF < (State.reset.setI 0x1000).i.toNat + (0x0 : Nibble).toNat := by
  decide

theorem witness_LoadAfterStoreRestoresRegisters : ∃ (x : Nibble) (s t u : State), s.mem.wf = true ∧
    exec (.ldMemVx x) s = .next t ∧ SameExcept [.v, .pc, .stack, .mode, .key, .fb, .dirty, .dt, .st, .draws] t u :=
  ⟨2, State.reset.setI 0x400, _, _, rfl, rfl, fun p _ => part_same_self _ p⟩

theorem witness_WrapCompatNeverFaultsOnData : ∃ s : State, s.addrWrapCompat = true ∧ s.mode = .running ∧
    0xFFE < s.pc.toNat ∧ State.reset.addrWrapCompat = false :=
  ⟨{ State.reset.setPc 0xFFF with addrWrapCompat := true }, by decide⟩

theorem witness_DrawInstructionDrawsTheSprite :
    { State.reset with addrWrapCompat := true }.addrWrapCompat = true ∧ (0x0 : Nibble).toNat = 0 ∧
    (State.reset.setI 0xFFB).i.toNat + (0x5 : Nibble).toNat - 1 ≤ 0xFFF ∧
    (State.reset.setI 0xFFC).addrWrapCompat = false ∧ 1 ≤ (0x5 : Nibble).toNat ∧
    0xFFF < (State.reset.setI 0xFFC).i.toNat + (0x5 : Nibble).toNat - 1 := by decide

theorem witness_DrawHasTheClosedForm : (List.replicate 15 (0x80 : Byte)).length ≤ 15 ∧
    ∃ (vx vy : Byte) (i i' j j' : Nat), i < 15 ∧ i' < 15 ∧ j < 8 ∧ j' < 8 ∧
      (vx.toNat + j) % 64 = (vx.toNat + j') % 64 ∧ (vy.toNat + i) % 32 = (vy.toNat + i') % 32 :=
  ⟨by decide, 0xFF, 0xFF, 14, 14, 7, 7, by decide⟩

theorem witness_CollisionIsAPixelTurnedOff : (List.replicate 15 (0xFF : Byte)).length ≤ 15 ∧
    ∃ t, exec (.drwVxVyN 1 2 5) State.reset = .next t := ⟨by decide, _, rfl⟩

theorem witness_LawsOfDraw : ∃ (rows rows' : List Byte) (f : Fbc), rows.length ≤ 15 ∧ rows'.length ≤ 15 ∧
    (∀ b ∈ rows, b = 0) ∧ ∀ (px : Fin 64) (py : Fin 32), f.pixel px py = false :=
  ⟨[0, 0], List.replicate 15 0xFF, State.reset.fbc, by decide, by decide, by decide, by decide +kernel⟩

theorem witness_DirtyStaysUntilTaken :
    (∃ t, exec (.cls 0) State.reset = .next t) ∧ (∃ t, exec (.drwVxVyN 1 2 5) State.reset = .next t) ∧
    (∃ t, step (placed 0x00E0) = .next t ∧ (placed 0x00E0).fbc.dirty = false ∧ t.fbc.dirty = true) ∧
    ∃ s t : State, s.fbc.dirty = true ∧ step s = .next t ∧ HostOp.step ≠ .takeDirty ∧ HostOp.step ≠ .init := by
  refine ⟨⟨_, rfl⟩, ⟨_, rfl⟩, ?_, State.reset.setFbc (clearScreen State.reset.fbc), _, rfl, rfl, by decide, by decide⟩
  obtain ⟨t, h, hd⟩ := next_of_runs (w := 0x00E0) (pre := id) (post := (·.fbc.dirty)) (by decide +kernel)
  exact ⟨t, h, rfl, hd⟩

theorem witness_StepsDoNotTick :
    (∃ s t : State, step s = .next t ∧ t.tmr.dt ≠ s.tmr.dt) ∧
    ∃ s t : State, step s = .next t ∧ t.tmr.st ≠ s.tmr.st := by
  constructor
  · obtain ⟨t, h, hd⟩ := next_of_runs (w := 0xF315) (pre := (·.setV 3 0x3C)) (post := (·.tmr.dt == 0x3C))
      (by decide +kernel)
    exact ⟨_, t, h, by rw [beq_iff_eq.mp hd]; decide⟩
  · obtain ⟨t, h, hd⟩ := next_of_runs (w := 0xF318) (pre := (·.setV 3 0x3C)) (post := (·.tmr.st == 0x3C))
      (by decide +kernel)
    exact ⟨_, t, h, by rw [beq_iff_eq.mp hd]; decide⟩

theorem witness_TickCommutesWithTheRest :
    (∃ (i : Instr) (s t : State), (∀ x : Nibble, i ≠ .ldVxDt x) ∧ (∀ x : Nibble, i ≠ .ldDtVx x) ∧
      (∀ x : Nibble, i ≠ .ldStVx x) ∧ exec i s = .next t) ∧
    ∃ (s t : State) (r : Nibble), s.mode = .waitingForKey r ∧ step s = .next t :=
  ⟨⟨.addVxVy 1 2, State.reset, _, by simp, by simp, by simp, rfl⟩, waiting [3], _, 5, rfl, rfl⟩

theorem witness_KeyWaitBeginsAtItsInstruction : ∃ (x : Nibble) (s : State) (w : Word), s.mode = .running ∧
    s.fetch = .ok w ∧ decodeWord w = .ok (.ldVxK x) :=
  ⟨5, placed 0xF50A, 0xF50A, by decide +kernel⟩

/-- The largest image that fits, and the smallest that does not (H1, H2). -/
theorem witness_LoadProgramCopiesTheImage : State.reset.mem.wf = true ∧
    (List.replicate 3584 (1 : Byte)).length ≤ 3584 ∧ 3584 < (List.replicate 3585 (1 : Byte)).length :=
  ⟨rfl, by rw [List.length_replicate], by rw [List.length_replicate]; decide⟩

theorem witness_InitLeavesTheResetValues :
    (∃ s t : State, s ≠ t ∧ perform .init s = (t, .ok)) ∧ (∃ t, initWith blankFontParams = .ok t) ∧
    blankFontParams.spriteClip = false ∧ { blankFontParams with spriteClip := true }.spriteClip = true :=
  ⟨⟨State.reset.setI 1, _, fun h => absurd (congrArg State.i h) (by decide), rfl⟩, ⟨_, rfl⟩, rfl, rfl⟩

theorem witness_DigitFiveGlyphIsInPlace : ∃ (x : Nibble) (s t u : State), (s.getV x).toNat % 16 = 5 ∧
    exec (.ldFVx x) s = .next t ∧ initWith blankFontParams = .ok u :=
  ⟨2, State.reset.setV 2 0x15, _, _, by decide, rfl, rfl⟩

theorem witness_InstructionsWriteOnlyTheirParts : ∃ (i : Instr) (s t : State), exec i s = .next t :=
  ⟨.addIVx 1, State.reset, _, rfl⟩

theorem witness_RegistersChangeAsDestinationOrFlag : ∃ (i : Instr) (s t : State) (r : Nibble), exec i s = .next t ∧
    writesFlag i = true ∧ isDestination i r = false ∧ r ≠ 0xF :=
  ⟨.addVxVy 1 2, State.reset, _, 2, rfl, by decide⟩

theorem witness_StepsWriteNoKey :
    (∃ (s t : State) (r : Nibble), step s = .next t ∧ s.mode = .waitingForKey r) ∧
    ∃ (s t : State) (r : Nibble), step s = .next t ∧ s.mode = .running ∧ t.mode = .waitingForKey r := by
  refine ⟨⟨waiting [3], _, 5, rfl, rfl⟩, ?_⟩
  obtain ⟨t, h, hm⟩ := next_of_runs (w := 0xF50A) (pre := id) (post := (·.mode == .waitingForKey 5)) (by decide +kernel)
  exact ⟨_, t, 5, h, rfl, beq_iff_eq.mp hm⟩

theorem witness_BlockObeysItsCommands :
    (∃ t, exec (.cls 0) State.reset = .next t) ∧ (∃ t, exec (.drwVxVyN 1 2 5) State.reset = .next t) ∧
    (∃ t, exec (.ldVxDt 3) State.reset = .next t) ∧ HostOp.tickTimers ≠ .step :=
  ⟨⟨_, rfl⟩, ⟨_, rfl⟩, ⟨_, rfl⟩, by decide⟩

/-- A state that runs, and one that waits at its instruction. -/
theorem witness_StepKeepsTheInvariant :
    (∃ t, Inv State.reset ∧ step State.reset = .next t) ∧ ∃ t, Inv (waiting [3]) ∧ step (waiting [3]) = .next t := by
  refine ⟨⟨_, ⟨rfl, fun r hr => ?_⟩, rfl⟩, _, ⟨by decide +kernel, fun r hr => ?_⟩, rfl⟩
  · cases hr
  · cases hr
    exact ⟨0xF50A, by decide +kernel⟩

theorem witness_HostOperationsKeepTheInvariant : ∃ (op : HostOp) (s : State),
    (∀ bytes : List Byte, op ≠ .loadProgram bytes) ∧ Inv s :=
  ⟨.tickTimers, State.reset, by simp, rfl, fun r hr => by cases hr⟩

end Sys2Proof.Tests
end

section
/-! SUPPORT. What an instruction, a step and an operation of the host can do to the memory and the mode, and from it
that they keep the invariant (R29). -/

namespace Sys2Proof.Machine

/-! ### The shared operations -/

@[simp] theorem State.setBulk_mem (s : State) (k : Nat) (bytes : List Byte) : (s.setBulk k bytes).mem = s.mem := by
  rw [State.setBulk_eq]

@[simp] theorem State.setBulk_mode (s : State) (k : Nat) (bytes : List Byte) :
    (s.setBulk k bytes).mode = s.mode := by
  rw [State.setBulk_eq]

/-- A fetch looks at `pc` and the memory alone (R80). -/
theorem State.fetch_congr {s t : State} (hpc : t.pc = s.pc) (hmem : t.mem = s.mem) : t.fetch = s.fetch := by
  unfold State.fetch
  rw [hpc, hmem]

/-- A skip moves `pc` at most (R92). -/
theorem skipIf_mem_mode {c : Bool} {s t : State} (h : skipIf c s = .next t) : t.mem = s.mem ∧ t.mode = s.mode := by
  cases c <;> cases h <;> exact ⟨rfl, rfl⟩

/-- A store through `I` that completes leaves the mode and keeps the canonical form. -/
theorem State.writeData_ok {s t : State} {bytes : List Byte} (h : s.writeData bytes = .ok t) :
    t.mode = s.mode ∧ (s.mem.wf = true → t.mem.wf = true) := by
  obtain ⟨-, m, hm, hwf, -⟩ | ⟨-, hf⟩ := s.writeData_cases bytes
  · cases hm.symm.trans h
    exact ⟨rfl, hwf⟩
  · cases hf.symm.trans h

/-! ### The instructions with a fault of their own -/

theorem execRet_mem_mode {s t : State} (h : execRet s = .next t) : t.mem = s.mem ∧ t.mode = s.mode := by
  unfold execRet at h
  by_cases hsp : s.sp.val = 0
  · rw [State.pop_of_empty hsp] at h
    cases h
  · rw [State.pop_of_pos hsp] at h
    cases h
    exact ⟨rfl, rfl⟩

theorem execCallAddr_mem_mode {nnn : Addr} {s t : State} (h : execCallAddr nnn s = .next t) :
    t.mem = s.mem ∧ t.mode = s.mode := by
  unfold execCallAddr at h
  by_cases hsp : s.sp.val < 16
  · rw [State.push_of_lt s.pc hsp] at h
    cases h
    exact ⟨rfl, rfl⟩
  · rw [State.push_of_full s.pc (by omega)] at h
    cases h

theorem execDrwVxVyN_mem_mode {x y n : Nibble} {s t : State} (h : execDrwVxVyN x y n s = .next t) :
    t.mem = s.mem ∧ t.mode = s.mode := by
  unfold execDrwVxVyN at h
  cases hr : s.readData n.toNat with
  | ok rows =>
    rw [hr] at h
    cases h
    exact ⟨rfl, rfl⟩
  | error f =>
    rw [hr] at h
    cases h

theorem execLdVxMem_mem_mode {x : Nibble} {s t : State} (h : execLdVxMem x s = .next t) :
    t.mem = s.mem ∧ t.mode = s.mode := by
  unfold execLdVxMem at h
  cases hr : s.readData (bulkLength x) with
  | ok bytes =>
    rw [hr] at h
    cases h
    exact ⟨s.setBulk_mem 0 bytes, s.setBulk_mode 0 bytes⟩
  | error f =>
    rw [hr] at h
    cases h

theorem execLdBVx_eq_next {x : Nibble} {s t : State} :
    execLdBVx x s = .next t ↔ s.writeData (bcdDigits (s.getV x)) = .ok t := by
  unfold execLdBVx
  cases s.writeData (bcdDigits (s.getV x)) <;> simp

theorem execLdMemVx_eq_next {x : Nibble} {s t : State} :
    execLdMemVx x s = .next t ↔ s.writeData (s.bulkBytes x) = .ok t := by
  unfold execLdMemVx
  cases s.writeData (s.bulkBytes x) <;> simp

/-! ### One instruction, one step -/

/-- Everything an instruction can do to the memory and the mode: leave both; begin the key wait of `LD Vx,K` (R183);
store through `I` (R125, R126). -/
theorem exec_mem_mode {i : Instr} {s t : State} (h : exec i s = .next t) :
    (t.mem = s.mem ∧ t.mode = s.mode) ∨
    (∃ x, i = .ldVxK x ∧ t = (s.setMode (.waitingForKey x)).setPc (s.pc - 2)) ∨
    ∃ bytes, s.writeData bytes = .ok t := by
  cases i with
  | ldVxK x =>
    cases h
    exact .inr (.inl ⟨x, rfl, rfl⟩)
  | ldBVx x => exact .inr (.inr ⟨_, execLdBVx_eq_next.mp h⟩)
  | ldMemVx x => exact .inr (.inr ⟨_, execLdMemVx_eq_next.mp h⟩)
  | ret => exact .inl (execRet_mem_mode h)
  | callAddr => exact .inl (execCallAddr_mem_mode h)
  | drwVxVyN => exact .inl (execDrwVxVyN_mem_mode h)
  | ldVxMem => exact .inl (execLdVxMem_mem_mode h)
  | seVxByte | sneVxByte | seVxVy | sneVxVy | skpVx | sknpVx => exact .inl (skipIf_mem_mode h)
  | cls | jpAddr | jpV0Addr | ldVxByte | addVxByte | ldVxVy | orVxVy | andVxVy | xorVxVy | addVxVy | subVxVy | shrVx
  | subnVxVy | shlVx | ldIAddr | rndVxByte | ldVxDt | ldDtVx | ldStVx | addIVx | ldFVx =>
    cases h
    exact .inl ⟨rfl, rfl⟩

/-- An instruction keeps the memory canonical. -/
theorem exec_mem_wf {i : Instr} {s t : State} (h : exec i s = .next t) (hw : s.mem.wf = true) : t.mem.wf = true := by
  obtain ⟨hmem, -⟩ | ⟨x, -, rfl⟩ | ⟨bytes, hb⟩ := exec_mem_mode h
  · rwa [hmem]
  · exact hw
  · exact (State.writeData_ok hb).2 hw

/-- A poll of the keypad leaves the state, or ends the wait and leaves the memory (R184). -/
theorem keyPoll_cases {r : Nibble} {s t : State} (h : keyPoll r s = .next t) :
    t = s ∨ t.mode = .running ∧ t.mem = s.mem := by
  unfold keyPoll at h
  cases hk : s.firstKey with
  | none =>
    rw [hk] at h
    cases h
    exact .inl rfl
  | some k =>
    rw [hk] at h
    cases h
    exact .inr ⟨rfl, rfl⟩

/-- Every step keeps the memory canonical. -/
theorem step_mem_wf {s t : State} (h : step s = .next t) (hw : s.mem.wf = true) : t.mem.wf = true := by
  obtain ⟨r, -, hs⟩ | ⟨-, -, hs⟩ | ⟨w, i, -, -, -, hs⟩ | ⟨w, e, -, -, -, hs⟩ := step_cases s <;> rw [hs] at h
  · obtain rfl | ⟨-, hmem⟩ := keyPoll_cases h
    · exact hw
    · rwa [hmem]
  · cases h
  · exact exec_mem_wf h hw
  · cases h
    exact hw

/-! ### The operations of the host -/

/-- A step of the host is the engine's, or leaves the state as it was (R224). -/
theorem perform_step_cases (s : State) :
    step s = .next (perform .step s).1 ∨ (perform .step s).1 = s := by
  unfold perform
  cases step s with
  | next t => exact .inl rfl
  | fault f => exact .inr rfl
  | refused r => exact .inr rfl

/-- `load_program` loads the image, or leaves the state as it was (R201, R227). -/
theorem perform_loadProgram_cases (bytes : List Byte) (s : State) :
    hostLoadProgram bytes s = .ok (perform (.loadProgram bytes) s).1 ∨ (perform (.loadProgram bytes) s).1 = s := by
  simp only [perform]
  cases hostLoadProgram bytes s with
  | ok t => exact .inl rfl
  | error e => exact .inr rfl

/-- Loading an image keeps the memory canonical: an image that fits ends within the machine's memory (R201). -/
theorem hostLoadProgram_mem_wf {bytes : List Byte} {s t : State} (h : hostLoadProgram bytes s = .ok t)
    (hw : s.mem.wf = true) : t.mem.wf = true := by
  unfold hostLoadProgram at h
  split at h
  · cases h
  · next hlen =>
    cases h
    have hprog : Config.programOffset.toNat ≤ Config.memSize := by decide
    exact (Memory.writeAll_cellsFrom hw (by omega)).1

/-- Every operation of the host keeps the memory canonical. -/
theorem perform_mem_wf (op : HostOp) {s : State} (hw : s.mem.wf = true) : (perform op s).1.mem.wf = true := by
  cases op with
  | init => exact (installFont_spec s.font).1
  | loadProgram bytes =>
    obtain hl | hl := perform_loadProgram_cases bytes s
    · exact hostLoadProgram_mem_wf hl hw
    · rwa [hl]
  | step =>
    obtain hs | hs := perform_step_cases s
    · exact step_mem_wf hs hw
    · rwa [hs]
  | tickTimers | setKey | framebuffer | takeDirty => exact hw

/-- Every execution keeps the memory canonical. -/
theorem runOps_mem_wf (ops : List HostOp) {s : State} (hw : s.mem.wf = true) : (runOps ops s).1.mem.wf = true := by
  induction ops generalizing s with
  | nil => exact hw
  | cons op ops ih => exact ih (perform_mem_wf op hw)

end Sys2Proof.Machine

namespace Sys2Proof.Safety

open Sys2Proof.Machine

/-! ### The invariant (R29) -/

/-- A state that runs waits for nothing. -/
theorem Inv.of_running {s : State} (hw : s.mem.wf = true) (hmode : s.mode = .running) : Inv s :=
  ⟨hw, fun r hr => by cases hmode.symm.trans hr⟩

/-- The invariant looks at the memory, `pc` and the mode alone. -/
theorem Inv.congr {s t : State} (hs : Inv s) (hmem : t.mem = s.mem) (hpc : t.pc = s.pc) (hmode : t.mode = s.mode) :
    Inv t := by
  obtain ⟨hw, hwait⟩ := hs
  refine ⟨hmem ▸ hw, fun r hr => ?_⟩
  rw [State.fetch_congr hpc hmem]
  exact hwait r (hmode ▸ hr)

/-- An instruction cycle keeps the invariant. The one instruction that begins a wait is the one fetched, and it takes
the pre-increment back (R183), so that the wait stands at it. -/
theorem exec_advancePc_inv {s t : State} {w : Word} {i : Instr} (hw : s.mem.wf = true) (hrun : s.mode = .running)
    (hf : s.fetch = .ok w) (hd : decodeWord w = .ok i) (h : exec i s.advancePc = .next t) : Inv t := by
  have htw : t.mem.wf = true := exec_mem_wf h hw
  obtain ⟨-, hmode⟩ | ⟨x, rfl, ht⟩ | ⟨bytes, hb⟩ := exec_mem_mode h
  · exact Inv.of_running htw (hmode.trans hrun)
  · have hpc : t.pc = s.pc := ht ▸ BitVec.add_sub_cancel s.pc 2
    have hmem : t.mem = s.mem := ht ▸ rfl
    refine ⟨htw, fun r hr => ⟨w, (State.fetch_congr hpc hmem).trans hf, ?_⟩⟩
    subst ht
    cases hr
    exact hd
  · exact Inv.of_running htw ((State.writeData_ok hb).1.trans hrun)

/-- Every step keeps the invariant. -/
theorem step_inv {s t : State} (hs : Inv s) (h : step s = .next t) : Inv t := by
  have htw : t.mem.wf = true := step_mem_wf h hs.1
  obtain ⟨r, -, hst⟩ | ⟨-, -, hst⟩ | ⟨w, i, hrun, hf, hd, hst⟩ | ⟨w, e, hrun, -, -, hst⟩ := step_cases s <;>
    rw [hst] at h
  · obtain rfl | ⟨hmode, -⟩ := keyPoll_cases h
    · exact hs
    · exact Inv.of_running htw hmode
  · cases h
  · exact exec_advancePc_inv hs.1 hrun hf hd h
  · cases h
    exact Inv.of_running htw hrun

/-- Every operation of the host but `load_program` keeps the invariant. -/
theorem perform_inv {op : HostOp} {s : State} (hop : ∀ bytes, op ≠ .loadProgram bytes) (hs : Inv s) :
    Inv (perform op s).1 := by
  cases op with
  | init => exact Inv.of_running (perform_mem_wf .init hs.1) rfl
  | loadProgram bytes => exact absurd rfl (hop bytes)
  | step =>
    obtain hst | hst := perform_step_cases s
    · exact step_inv hs hst
    · rwa [hst]
  | tickTimers | setKey | framebuffer | takeDirty => exact hs.congr rfl rfl rfl

/-- Settles O60: the invariant by cases on the operation, the canonical memory by induction on the execution. -/
theorem hostOperationsKeepTheInvariant : Obligations.HostOperationsKeepTheInvariant :=
  ⟨fun _ _ hop hs => perform_inv hop hs, fun ops _ hw => runOps_mem_wf ops hw⟩

end Sys2Proof.Safety
end

section
/-! SUPPORT. What each operation on the state leaves unchanged, what every instruction writes, and the invariant at
reset and over a step (spec/10_state.md). -/

namespace Sys2Proof.Machine

/-! ### The instructions with a fault of their own -/

theorem execRet_eq_next {s t : State} :
    execRet s = .next t ↔ ∃ w u, s.pop = .ok (w, u) ∧ u.setPc w = t := by
  unfold execRet
  rcases s.pop with f | ⟨w, u⟩ <;> simp

theorem execCallAddr_eq_next {nnn : Addr} {s t : State} :
    execCallAddr nnn s = .next t ↔ ∃ u, s.push s.pc = .ok u ∧ u.setPc (zextAddr nnn) = t := by
  unfold execCallAddr
  cases s.push s.pc <;> simp

theorem execDrwVxVyN_eq_next {x y n : Nibble} {s t : State} :
    execDrwVxVyN x y n s = .next t ↔ ∃ rows, s.readData n.toNat = .ok rows ∧
      (s.setFbc (drawSprite (s.getV x) (s.getV y) rows s.fbc).1).setFlag
        (drawSprite (s.getV x) (s.getV y) rows s.fbc).2 = t := by
  unfold execDrwVxVyN
  cases s.readData n.toNat <;> simp

theorem execLdVxMem_eq_next {x : Nibble} {s t : State} :
    execLdVxMem x s = .next t ↔ ∃ bytes, s.readData (bulkLength x) = .ok bytes ∧ s.setBulk 0 bytes = t := by
  unfold execLdVxMem
  cases s.readData (bulkLength x) <;> simp

/-- A load through `I` that completes gives the bytes asked for and no more (R45). -/
theorem State.readData_length {s : State} {n : Nat} {bytes : List Byte} (h : s.readData n = .ok bytes) :
    bytes.length = n := by
  rw [State.readData_eq] at h
  split at h <;> cases h
  simp

/-- `LD Vx,[I]` leaves the registers above `V[x]` (R127). -/
theorem State.getV_setBulk_of_lt {s : State} {x r : Nibble} {bytes : List Byte} (hlen : bytes.length = bulkLength x)
    (hr : x.toNat < r.toNat) : (s.setBulk 0 bytes).getV r = s.getV r := by
  have hx := bulkLength_le x
  rw [State.getV_setBulk s 0 bytes (by omega), dif_neg]
  rw [hlen, bulkLength]
  omega

/-! ### The glyph of the digit 5 -/

/-- The low nibble of a byte as a number. -/
theorem lowDigit_toNat (b : Byte) : (lowDigit b).toNat = b.toNat % 16 := by
  simp [lowDigit]

/-- `LD F` gives the digit 5 the address `0x069` (R124). -/
theorem glyphAddr_lowDigit_five {b : Byte} (h : b.toNat % 16 = 5) : glyphAddr (lowDigit b) = 0x069 := by
  have hd : lowDigit b = 5 := BitVec.eq_of_toNat_eq ((lowDigit_toNat b).trans h)
  rw [hd]
  rfl

/-- Whatever the font, the glyph 5 of the source lies at `0x069` once it is installed (R31). -/
theorem installFont_glyphFive (f : Font) :
    (List.range 5).map (fun k => Memory.read (installFont f) (0x069 + k)) = glyphFive.toList := by
  rw [← f.bytes_five]
  refine List.ext_getElem (by simp) fun k hk _ => ?_
  have hk : k < 5 := by simpa using hk
  obtain ⟨-, hread, -⟩ := installFont_spec f
  simpa [← Nat.add_assoc] using hread (25 + k) (by rw [Font.bytes_length]; omega)

/-- What `init()` leaves in memory, and what stands there at reset, is an installed font (R250). -/
theorem mem_eq_installFont_of_init {u v : State}
    (h : u = State.reset ∨ perform .init v = (u, .ok) ∨ ∃ p, initWith p = .ok u) : ∃ f, u.mem = installFont f := by
  obtain rfl | h | ⟨p, h⟩ := h
  · exact ⟨defaultFont, installFont_default.symm⟩
  · cases h
    exact ⟨v.font, rfl⟩
  · unfold initWith at h
    split at h <;> cases h
    exact ⟨p.font, rfl⟩

end Sys2Proof.Machine

namespace Sys2Proof.Safety

open Sys2Proof.Machine

/-! ### The parts an operation on the state writes -/

theorem SameExcept.refl (l : List Part) (s : State) : SameExcept l s s := fun p _ => by
  cases p <;> simp [Part.same]

theorem Part.same_trans {p : Part} {s t u : State} (h : p.same s t) (h' : p.same t u) : p.same s u := by
  cases p <;> simp_all [Part.same]

/-- What two operations in a row write is what the one or the other writes. -/
theorem SameExcept.trans {l l' : List Part} {s t u : State} (h : SameExcept l s t) (h' : SameExcept l' t u) :
    SameExcept (l ++ l') s u := fun p hp => by
  obtain ⟨hl, hl'⟩ := not_or.mp (List.mem_append.not.mp hp)
  exact Part.same_trans (h p hl) (h' p hl')

theorem SameExcept.mono {l l' : List Part} {s t : State} (h : SameExcept l s t) (hl : l ⊆ l') : SameExcept l' s t :=
  fun p hp => h p fun hm => hp (hl hm)

theorem sameExcept_setV (s : State) (x : Nibble) (b : Byte) : SameExcept [.v] s (s.setV x b) := fun p hp => by
  cases p <;> simp_all [Part.same]

theorem sameExcept_setI (s : State) (w : Word) : SameExcept [.i] s (s.setI w) := fun p hp => by
  cases p <;> simp_all [Part.same]

theorem sameExcept_setPc (s : State) (w : Word) : SameExcept [.pc] s (s.setPc w) := fun p hp => by
  cases p <;> simp_all [Part.same]

theorem sameExcept_setMode (s : State) (m : Mode) : SameExcept [.mode] s (s.setMode m) := fun p hp => by
  cases p <;> simp_all [Part.same]

theorem sameExcept_setFbc (s : State) (f : Fbc) : SameExcept [.fb, .dirty] s (s.setFbc f) := fun p hp => by
  cases p <;> simp_all [Part.same]

theorem sameExcept_loadDt (s : State) (b : Byte) : SameExcept [.dt] s (s.setTmr (loadDt b s.tmr)) := fun p hp => by
  cases p <;> simp_all [Part.same]

theorem sameExcept_loadSt (s : State) (b : Byte) : SameExcept [.st] s (s.setTmr (loadSt b s.tmr)) := fun p hp => by
  cases p <;> simp_all [Part.same]

theorem sameExcept_draw (s : State) : SameExcept [.draws] s s.draw.2 := fun p hp => by
  cases p <;> simp_all [Part.same, State.draw, State.getV, State.getKey]

theorem sameExcept_push {s t : State} {w : Word} (h : s.push w = .ok t) : SameExcept [.stack] s t := fun p hp => by
  by_cases hsp : s.sp.val < 16
  · cases (State.push_of_lt w hsp).symm.trans h
    cases p <;> simp_all [Part.same, State.getV, State.getKey]
  · cases (State.push_of_full w (by omega)).symm.trans h

theorem sameExcept_pop {s t : State} {w : Word} (h : s.pop = .ok (w, t)) : SameExcept [.stack] s t := fun p hp => by
  by_cases hsp : s.sp.val = 0
  · cases (State.pop_of_empty hsp).symm.trans h
  · cases (State.pop_of_pos hsp).symm.trans h
    cases p <;> simp_all [Part.same, State.getV, State.getKey]

theorem sameExcept_writeData {s t : State} {bytes : List Byte} (h : s.writeData bytes = .ok t) :
    SameExcept [.mem] s t := fun p hp => by
  obtain ⟨-, m, hm, -⟩ | ⟨-, hf⟩ := s.writeData_cases bytes
  · cases hm.symm.trans h
    cases p <;> simp_all [Part.same, State.getV, State.getKey]
  · cases hf.symm.trans h

/-- The result and the flag of an arithmetic instruction both go to the registers (R112). -/
theorem sameExcept_setVThenFlag (s : State) (x : Nibble) (b : Byte) (c : Bool) :
    SameExcept [.v] s (s.setVThenFlag x b c) :=
  ((sameExcept_setV s x b).trans (sameExcept_setV _ 0xF (flagByte c))).mono (by simp)

theorem sameExcept_setBulk (s : State) (k : Nat) (bytes : List Byte) : SameExcept [.v] s (s.setBulk k bytes) := by
  induction bytes generalizing s k with
  | nil => exact SameExcept.refl _ s
  | cons b bytes ih => exact ((sameExcept_setV s _ b).trans (ih _ (k + 1))).mono (by simp)

/-- A skip moves `pc` or leaves everything (R92). -/
theorem sameExcept_skipIf {c : Bool} {s t : State} (h : skipIf c s = .next t) : SameExcept [.pc] s t := by
  cases c <;> cases h
  · exact SameExcept.refl _ s
  · exact sameExcept_setPc s (s.pc + 2)

/-! ### What every instruction writes -/

/-- An instruction writes the parts its rule lists and no other. -/
theorem exec_sameExcept {i : Instr} {s t : State} (h : exec i s = .next t) : SameExcept (partsWritten i) s t := by
  cases i with
  | ldVxByte | addVxByte | ldVxVy | orVxVy | andVxVy | xorVxVy | ldVxDt =>
    cases h
    exact sameExcept_setV s _ _
  | addVxVy | subVxVy | shrVx | subnVxVy | shlVx =>
    cases h
    exact sameExcept_setVThenFlag s _ _ _
  | seVxByte | sneVxByte | seVxVy | sneVxVy | skpVx | sknpVx => exact sameExcept_skipIf h
  | jpAddr | jpV0Addr =>
    cases h
    exact sameExcept_setPc s _
  | ldIAddr | ldFVx =>
    cases h
    exact sameExcept_setI s _
  | ldBVx x => exact sameExcept_writeData (execLdBVx_eq_next.mp h)
  | ldMemVx x => exact sameExcept_writeData (execLdMemVx_eq_next.mp h)
  | cls =>
    cases h
    exact sameExcept_setFbc s _
  | ldDtVx x =>
    cases h
    exact sameExcept_loadDt s _
  | ldStVx x =>
    cases h
    exact sameExcept_loadSt s _
  | ldVxK x =>
    cases h
    exact ((sameExcept_setMode s _).trans (sameExcept_setPc _ _)).mono (by simp [partsWritten])
  | addIVx x =>
    cases h
    exact ((sameExcept_setI s _).trans (sameExcept_setV _ 0xF _)).mono (by simp [partsWritten])
  | rndVxByte x kk =>
    cases h
    exact ((sameExcept_draw s).trans (sameExcept_setV _ x _)).mono (by simp [partsWritten])
  | ret =>
    obtain ⟨w, u, hpop, rfl⟩ := execRet_eq_next.mp h
    exact ((sameExcept_pop hpop).trans (sameExcept_setPc u w)).mono (by simp [partsWritten])
  | callAddr nnn =>
    obtain ⟨u, hpush, rfl⟩ := execCallAddr_eq_next.mp h
    exact ((sameExcept_push hpush).trans (sameExcept_setPc u _)).mono (by simp [partsWritten])
  | drwVxVyN x y n =>
    obtain ⟨rows, -, rfl⟩ := execDrwVxVyN_eq_next.mp h
    exact ((sameExcept_setFbc s _).trans (sameExcept_setV _ 0xF _)).mono (by simp [partsWritten])
  | ldVxMem x =>
    obtain ⟨bytes, -, rfl⟩ := execLdVxMem_eq_next.mp h
    exact sameExcept_setBulk s 0 bytes

/-- The seven flag writers leave a flag in `V[F]`, whatever their destination (R11, R112). -/
theorem exec_flag {i : Instr} {s t : State} (h : exec i s = .next t) (hw : writesFlag i = true) :
    ∃ c, t.getV 0xF = flagByte c := by
  cases i with
  | addVxVy | subVxVy | shrVx | subnVxVy | shlVx =>
    cases h
    exact ⟨_, s.getV_setVThenFlag _ _ _ 0xF⟩
  | addIVx x =>
    cases h
    exact ⟨_, State.getV_setFlag _ _ 0xF⟩
  | drwVxVyN x y n =>
    obtain ⟨rows, -, rfl⟩ := execDrwVxVyN_eq_next.mp h
    exact ⟨_, State.getV_setFlag _ _ 0xF⟩
  | _ => cases hw

/-- A register that is no ordinary destination, and not the flag of a flag writer, keeps its value (R11). -/
theorem exec_getV {i : Instr} {s t : State} {r : Nibble} (h : exec i s = .next t) (hd : isDestination i r = false)
    (hf : writesFlag i = false ∨ r ≠ 0xF) : t.getV r = s.getV r := by
  by_cases hv : .v ∈ partsWritten i
  · cases i with
    | ldVxByte x | addVxByte x | ldVxVy x | orVxVy x | andVxVy x | xorVxVy x | ldVxDt x | rndVxByte x =>
      cases h
      exact (State.getV_setV _ x _ r).trans (if_neg (by simpa [isDestination] using hd))
    | addVxVy x | subVxVy x | shrVx x | subnVxVy x | shlVx x =>
      have hx : r ≠ x := by simpa [isDestination] using hd
      have hF : r ≠ 0xF := hf.resolve_left (by simp [writesFlag])
      cases h
      rw [State.getV_setVThenFlag, if_neg hF, if_neg hx]
    | addIVx x =>
      cases h
      exact (State.getV_setFlag _ _ r).trans (if_neg (hf.resolve_left (by simp [writesFlag])))
    | drwVxVyN x y n =>
      obtain ⟨rows, -, rfl⟩ := execDrwVxVyN_eq_next.mp h
      exact (State.getV_setFlag _ _ r).trans (if_neg (hf.resolve_left (by simp [writesFlag])))
    | ldVxMem x =>
      obtain ⟨bytes, hb, rfl⟩ := execLdVxMem_eq_next.mp h
      exact State.getV_setBulk_of_lt (State.readData_length hb) (by simpa [isDestination] using hd)
    | _ => simp [partsWritten] at hv
  · exact exec_sameExcept h .v hv r

/-! ### The statements -/

/-- Settles O58, by cases on what the step does. -/
theorem stepKeepsTheInvariant : Obligations.StepKeepsTheInvariant := fun _ _ hs h => step_inv hs h

/-- Settles O54, by cases on the instruction. -/
theorem instructionsWriteOnlyTheirParts : Obligations.InstructionsWriteOnlyTheirParts :=
  fun _ _ _ h => exec_sameExcept h

/-- Settles O55: the flag of the flag writers, and the frame of the register file. -/
theorem registersChangeAsDestinationOrFlag : Obligations.RegistersChangeAsDestinationOrFlag := by
  refine fun i s t h => ⟨fun hw => ?_, fun r hd hf => exec_getV h hd hf⟩
  obtain ⟨c, hc⟩ := exec_flag h hw
  rw [hc]
  exact flagByte_zero_or_one c

/-- Settles O53: `LD F` gives `0x069`, where every installed font has the glyph 5. -/
theorem digitFiveGlyphIsInPlace : Obligations.DigitFiveGlyphIsInPlace := by
  intro x s t u v hx h hu
  obtain ⟨f, hf⟩ := mem_eq_installFont_of_init hu
  have ht : t.i = 0x069 := by
    cases h
    exact glyphAddr_lowDigit_five hx
  rw [ht, hf]
  exact installFont_glyphFive f

/-- Settles O59: at reset nothing is waited for. -/
theorem resetMeetsTheInvariant : Obligations.ResetMeetsTheInvariant := Inv.of_running State.reset_mem_wf rfl

end Sys2Proof.Safety
end

section
/-! SUPPORT. The fetch, and the transfers through `I` with `ADDR_WRAP_COMPAT` (spec/20_memory.md). -/

namespace Sys2Proof.Machine

/-- A running step above `0xFFE` fails in its fetch (R80). -/
theorem step_of_pc_gt {s : State} (hrun : s.mode = .running) (hpc : 0xFFE < s.pc.toNat) :
    step s = .fault .outOfRangeMemoryAccess := by
  simp [step, hrun, State.fetch_of_gt hpc]

/-! ### Transfers through `I` with `ADDR_WRAP_COMPAT` (R46) -/

section
variable {s : State} (hwrap : s.addrWrapCompat = true)
include hwrap

/-- No transfer is out of range, whatever its length. -/
theorem State.dataInRange_of_wrap (n : Nat) : s.dataInRange n = true := by
  simp [State.dataInRange, hwrap]

theorem State.readData_of_wrap (n : Nat) : ∃ bytes, s.readData n = .ok bytes :=
  ⟨_, (s.readData_eq n).trans (if_pos (State.dataInRange_of_wrap hwrap n))⟩

theorem State.writeData_of_wrap (bytes : List Byte) : ∃ t, s.writeData bytes = .ok t := by
  obtain ⟨-, m, hm, -⟩ | ⟨hout, -⟩ := s.writeData_cases bytes
  · exact ⟨_, hm⟩
  · cases (State.dataInRange_of_wrap hwrap bytes.length).symm.trans hout

theorem exec_drwVxVyN_completes_of_wrap (x y n : Nibble) : ∃ t, exec (.drwVxVyN x y n) s = .next t := by
  obtain ⟨rows, hrows⟩ := State.readData_of_wrap hwrap n.toNat
  exact ⟨_, execDrwVxVyN_eq_next.mpr ⟨rows, hrows, rfl⟩⟩

theorem exec_ldBVx_completes_of_wrap (x : Nibble) : ∃ t, exec (.ldBVx x) s = .next t := by
  obtain ⟨t, ht⟩ := State.writeData_of_wrap hwrap (bcdDigits (s.getV x))
  exact ⟨t, execLdBVx_eq_next.mpr ht⟩

theorem exec_ldMemVx_completes_of_wrap (x : Nibble) : ∃ t, exec (.ldMemVx x) s = .next t := by
  obtain ⟨t, ht⟩ := State.writeData_of_wrap hwrap (s.bulkBytes x)
  exact ⟨t, execLdMemVx_eq_next.mpr ht⟩

theorem exec_ldVxMem_completes_of_wrap (x : Nibble) : ∃ t, exec (.ldVxMem x) s = .next t := by
  obtain ⟨bytes, hbytes⟩ := State.readData_of_wrap hwrap (bulkLength x)
  exact ⟨_, execLdVxMem_eq_next.mpr ⟨bytes, hbytes, rfl⟩⟩

end

/-- The address of byte `k` of a transfer, with the parameter off (R121). -/
theorem State.dataAddr_of_not_wrap {s : State} (h : s.addrWrapCompat = false) (k : Nat) :
    s.dataAddr k = s.i.toNat + k := by
  simp [State.dataAddr, h]

/-- The address of byte `k` of a transfer, with the parameter on (R46). -/
theorem State.dataAddr_of_wrap {s : State} (h : s.addrWrapCompat = true) (k : Nat) :
    s.dataAddr k = (s.i.toNat + k) % 4096 := by
  simp [State.dataAddr, h, Config.memSize]

/-! ### The statements -/

/-- Settles O36: with the parameter the range check never fails, so each of the four transfers completes; the fetch does
not look at it. -/
theorem wrapCompatNeverFaultsOnData : Obligations.WrapCompatNeverFaultsOnData :=
  ⟨fun _ k h => State.dataAddr_of_not_wrap h k, fun _ hwrap =>
    ⟨State.dataAddr_of_wrap hwrap, exec_drwVxVyN_completes_of_wrap hwrap, exec_ldBVx_completes_of_wrap hwrap,
      exec_ldMemVx_completes_of_wrap hwrap, exec_ldVxMem_completes_of_wrap hwrap, step_of_pc_gt⟩⟩

/-- Settles O7, by the two cases of the fetch. -/
theorem fetchIsBigEndianAndChecked : Obligations.FetchIsBigEndianAndChecked :=
  ⟨fun _ hpc => ⟨_, State.fetch_of_le hpc, wordOfBytes_toNat _ _⟩, fun _ => step_of_pc_gt⟩

end Sys2Proof.Machine
end

section
/-! SUPPORT. The decoder and the encoder are inverse to each other, and what follows from it: the rows of the opcode
table, the unrecognized words, the ignored bits (spec/30_encoding.md); and that no step is refused. -/

namespace Sys2Proof

/-! ### Stage 1 of the dispatch (R64) -/

section
variable {w : Word}

theorem decodeWord_of_prefix_0 (hp : prefixOf w = 0x0) : decodeWord w = decode0 w := by simp [decodeWord, hp]

theorem decodeWord_of_prefix_8 (hp : prefixOf w = 0x8) : decodeWord w = decode8 w := by simp [decodeWord, hp]

theorem decodeWord_of_prefix_E (hp : prefixOf w = 0xE) : decodeWord w = decodeE w := by simp [decodeWord, hp]

theorem decodeWord_of_prefix_F (hp : prefixOf w = 0xF) : decodeWord w = decodeF w := by simp [decodeWord, hp]

/-- The fifteen tests of stage 1 leave the major opcode `F` alone. -/
theorem prefix_eq_F_of_ne {p : Nibble} (h0 : p ≠ 0x0) (h1 : p ≠ 0x1) (h2 : p ≠ 0x2) (h3 : p ≠ 0x3) (h4 : p ≠ 0x4)
    (h5 : p ≠ 0x5) (h6 : p ≠ 0x6) (h7 : p ≠ 0x7) (h8 : p ≠ 0x8) (h9 : p ≠ 0x9) (hA : p ≠ 0xA) (hB : p ≠ 0xB)
    (hC : p ≠ 0xC) (hD : p ≠ 0xD) (hE : p ≠ 0xE) : p = 0xF := by bv_omega

end

/-! ### The word of an instruction decodes to it -/

/-- Decoding undoes encoding: one group of cases for each major opcode with a stage 2, and one for the others. -/
theorem decodeWord_encode (i : Instr) : decodeWord (encode i) = .ok i := by
  cases i with
  | cls | ret => simp [encode, decodeWord_of_prefix_0, decode0]
  | ldVxVy | orVxVy | andVxVy | xorVxVy | addVxVy | subVxVy | shrVx | subnVxVy | shlVx =>
    simp [encode, decodeWord_of_prefix_8, decode8]
  | skpVx | sknpVx => simp [encode, decodeWord_of_prefix_E, decodeE]
  | ldVxDt | ldVxK | ldDtVx | ldStVx | addIVx | ldFVx | ldBVx | ldMemVx | ldVxMem =>
    simp [encode, decodeWord_of_prefix_F, decodeF]
  | jpAddr | callAddr | seVxByte | sneVxByte | seVxVy | ldVxByte | addVxByte | sneVxVy | ldIAddr | jpV0Addr
  | rndVxByte | drwVxVyN => simp [encode, decodeWord]

/-! ### A word that decodes is the word of its instruction -/

section
variable {w : Word} {i : Instr} {p n : Nibble} {k : Byte}

/-- A word with major opcode `p` is `p` packed with its address. -/
theorem packA_of_prefix (hp : prefixOf w = p) : packA p (nnnOf w) = w := by rw [← hp, packA_fields]

theorem packXK_of_prefix (hp : prefixOf w = p) : packXK p (xOf w) (kkOf w) = w := by rw [← hp, packXK_fields]

theorem packXYN_of_prefix (hp : prefixOf w = p) : packXYN p (xOf w) (yOf w) (nOf w) = w := by
  rw [← hp, packXYN_fields]

/-- A word with major opcode `p` and `kk = k` is the two packed with its `x`. -/
theorem packXK_of_prefix_kk (hp : prefixOf w = p) (hk : kkOf w = k) : packXK p (xOf w) k = w := by
  rw [← hk, packXK_of_prefix hp]

/-- A word with major opcode `p` and `n` is the two packed with its `x` and `y`. -/
theorem packXYN_of_prefix_n (hp : prefixOf w = p) (hn : nOf w = n) : packXYN p (xOf w) (yOf w) n = w := by
  rw [← hn, packXYN_of_prefix hp]

/-- What the decoder may answer for `w`: an instruction whose word is `w`, or an error. -/
def EncodesBack (w : Word) (d : Except DecodeError Instr) : Prop := ∀ i, d = .ok i → encode i = w

theorem EncodesBack.ok (h : encode i = w) : EncodesBack w (.ok i) := fun _ hi => by cases hi; exact h

theorem EncodesBack.error {e : DecodeError} : EncodesBack w (.error e) := fun _ hi => by cases hi

/-- One test of the dispatch: each of its two answers may rest on what the test found. -/
theorem EncodesBack.ite {c : Prop} [Decidable c] {d d' : Except DecodeError Instr} (hpos : c → EncodesBack w d)
    (hneg : ¬c → EncodesBack w d') : EncodesBack w (if c then d else d') :=
  iteInduction hpos hneg

theorem decode0_encodesBack (hp : prefixOf w = 0x0) : EncodesBack w (decode0 w) := by
  unfold decode0
  iterate 2 refine .ite (fun hk => .ok (packXK_of_prefix_kk hp hk)) fun _ => ?_
  exact .error

theorem decode8_encodesBack (hp : prefixOf w = 0x8) : EncodesBack w (decode8 w) := by
  unfold decode8
  iterate 9 refine .ite (fun hn => .ok (packXYN_of_prefix_n hp hn)) fun _ => ?_
  exact .error

theorem decodeE_encodesBack (hp : prefixOf w = 0xE) : EncodesBack w (decodeE w) := by
  unfold decodeE
  iterate 2 refine .ite (fun hk => .ok (packXK_of_prefix_kk hp hk)) fun _ => ?_
  exact .error

theorem decodeF_encodesBack (hp : prefixOf w = 0xF) : EncodesBack w (decodeF w) := by
  unfold decodeF
  iterate 9 refine .ite (fun hk => .ok (packXK_of_prefix_kk hp hk)) fun _ => ?_
  exact .error

/-- Encoding undoes decoding, major opcode by major opcode. -/
theorem decodeWord_encodesBack (w : Word) : EncodesBack w (decodeWord w) :=
  .ite decode0_encodesBack fun h0 =>
  .ite (fun hp => .ok (packA_of_prefix hp)) fun h1 =>
  .ite (fun hp => .ok (packA_of_prefix hp)) fun h2 =>
  .ite (fun hp => .ok (packXK_of_prefix hp)) fun h3 =>
  .ite (fun hp => .ok (packXK_of_prefix hp)) fun h4 =>
  .ite (fun hp => .ok (packXYN_of_prefix hp)) fun h5 =>
  .ite (fun hp => .ok (packXK_of_prefix hp)) fun h6 =>
  .ite (fun hp => .ok (packXK_of_prefix hp)) fun h7 =>
  .ite decode8_encodesBack fun h8 =>
  .ite (fun hp => .ok (packXYN_of_prefix hp)) fun h9 =>
  .ite (fun hp => .ok (packA_of_prefix hp)) fun hA =>
  .ite (fun hp => .ok (packA_of_prefix hp)) fun hB =>
  .ite (fun hp => .ok (packXK_of_prefix hp)) fun hC =>
  .ite (fun hp => .ok (packXYN_of_prefix hp)) fun hD =>
  .ite decodeE_encodesBack fun hE =>
  decodeF_encodesBack (prefix_eq_F_of_ne h0 h1 h2 h3 h4 h5 h6 h7 h8 h9 hA hB hC hD hE)

theorem encode_of_decodeWord (h : decodeWord w = .ok i) : encode i = w := decodeWord_encodesBack w i h

/-! ### Rows of the opcode table (R65) -/

/-- A word of a row with mask `F0FF` is the row's major opcode and `kk` packed with the word's `x`. -/
theorem packXK_of_row (h : w &&& 0xF0FF = packXK p 0 k) : packXK p (xOf w) k = w := by
  obtain ⟨hp, hk⟩ := (and_F0FF_eq_iff w p k).mp h
  exact packXK_of_prefix_kk hp hk

/-- A word of a row with mask `F00F` is the row's major opcode and `n` packed with the word's `x` and `y`. -/
theorem packXYN_of_row (h : w &&& 0xF00F = packXYN p 0 0 n) : packXYN p (xOf w) (yOf w) n = w := by
  obtain ⟨hp, hn⟩ := (and_F00F_eq_iff w p n).mp h
  exact packXYN_of_prefix_n hp hn

/-- A word of a row with mask `F000` has the row's major opcode. -/
theorem prefixOf_of_row (h : w &&& 0xF000 = packA p 0) : prefixOf w = p := (and_F000_eq_iff w p).mp h

/-- The word of an instruction matches its row, format by format. -/
theorem encode_matches_row (i : Instr) : encode i &&& (opcodeRow i).1 = (opcodeRow i).2 := by
  cases i with
  | jpAddr | callAddr | ldIAddr | jpV0Addr => exact Laws.packA_row _ _
  | seVxByte | sneVxByte | seVxVy | ldVxByte | addVxByte | sneVxVy | rndVxByte | drwVxVyN =>
    exact Laws.packXK_prefix_row _ _ _
  | ldVxVy | orVxVy | andVxVy | xorVxVy | addVxVy | subVxVy | shrVx | subnVxVy | shlVx =>
    exact Laws.packXYN_row _ _ _ _
  | cls | ret | skpVx | sknpVx | ldVxDt | ldVxK | ldDtVx | ldStVx | addIVx | ldFVx | ldBVx | ldMemVx | ldVxMem =>
    exact Laws.packXK_row _ _ _

/-- A word that matches an instruction's row is the word of an instruction of that row: the one with the word's own
fields as its operands. -/
theorem exists_encode_of_row (h : w &&& (opcodeRow i).1 = (opcodeRow i).2) :
    ∃ j, encode j = w ∧ opcodeRow j = opcodeRow i := by
  cases i with
  | cls => exact ⟨.cls (xOf w), packXK_of_row h, rfl⟩
  | ret => exact ⟨.ret (xOf w), packXK_of_row h, rfl⟩
  | jpAddr => exact ⟨.jpAddr (nnnOf w), packA_of_prefix (prefixOf_of_row h), rfl⟩
  | callAddr => exact ⟨.callAddr (nnnOf w), packA_of_prefix (prefixOf_of_row h), rfl⟩
  | seVxByte => exact ⟨.seVxByte (xOf w) (kkOf w), packXK_of_prefix (prefixOf_of_row h), rfl⟩
  | sneVxByte => exact ⟨.sneVxByte (xOf w) (kkOf w), packXK_of_prefix (prefixOf_of_row h), rfl⟩
  | seVxVy => exact ⟨.seVxVy (xOf w) (yOf w) (nOf w), packXYN_of_prefix (prefixOf_of_row h), rfl⟩
  | ldVxByte => exact ⟨.ldVxByte (xOf w) (kkOf w), packXK_of_prefix (prefixOf_of_row h), rfl⟩
  | addVxByte => exact ⟨.addVxByte (xOf w) (kkOf w), packXK_of_prefix (prefixOf_of_row h), rfl⟩
  | ldVxVy => exact ⟨.ldVxVy (xOf w) (yOf w), packXYN_of_row h, rfl⟩
  | orVxVy => exact ⟨.orVxVy (xOf w) (yOf w), packXYN_of_row h, rfl⟩
  | andVxVy => exact ⟨.andVxVy (xOf w) (yOf w), packXYN_of_row h, rfl⟩
  | xorVxVy => exact ⟨.xorVxVy (xOf w) (yOf w), packXYN_of_row h, rfl⟩
  | addVxVy => exact ⟨.addVxVy (xOf w) (yOf w), packXYN_of_row h, rfl⟩
  | subVxVy => exact ⟨.subVxVy (xOf w) (yOf w), packXYN_of_row h, rfl⟩
  | shrVx => exact ⟨.shrVx (xOf w) (yOf w), packXYN_of_row h, rfl⟩
  | subnVxVy => exact ⟨.subnVxVy (xOf w) (yOf w), packXYN_of_row h, rfl⟩
  | shlVx => exact ⟨.shlVx (xOf w) (yOf w), packXYN_of_row h, rfl⟩
  | sneVxVy => exact ⟨.sneVxVy (xOf w) (yOf w) (nOf w), packXYN_of_prefix (prefixOf_of_row h), rfl⟩
  | ldIAddr => exact ⟨.ldIAddr (nnnOf w), packA_of_prefix (prefixOf_of_row h), rfl⟩
  | jpV0Addr => exact ⟨.jpV0Addr (nnnOf w), packA_of_prefix (prefixOf_of_row h), rfl⟩
  | rndVxByte => exact ⟨.rndVxByte (xOf w) (kkOf w), packXK_of_prefix (prefixOf_of_row h), rfl⟩
  | drwVxVyN => exact ⟨.drwVxVyN (xOf w) (yOf w) (nOf w), packXYN_of_prefix (prefixOf_of_row h), rfl⟩
  | skpVx => exact ⟨.skpVx (xOf w), packXK_of_row h, rfl⟩
  | sknpVx => exact ⟨.sknpVx (xOf w), packXK_of_row h, rfl⟩
  | ldVxDt => exact ⟨.ldVxDt (xOf w), packXK_of_row h, rfl⟩
  | ldVxK => exact ⟨.ldVxK (xOf w), packXK_of_row h, rfl⟩
  | ldDtVx => exact ⟨.ldDtVx (xOf w), packXK_of_row h, rfl⟩
  | ldStVx => exact ⟨.ldStVx (xOf w), packXK_of_row h, rfl⟩
  | addIVx => exact ⟨.addIVx (xOf w), packXK_of_row h, rfl⟩
  | ldFVx => exact ⟨.ldFVx (xOf w), packXK_of_row h, rfl⟩
  | ldBVx => exact ⟨.ldBVx (xOf w), packXK_of_row h, rfl⟩
  | ldMemVx => exact ⟨.ldMemVx (xOf w), packXK_of_row h, rfl⟩
  | ldVxMem => exact ⟨.ldVxMem (xOf w), packXK_of_row h, rfl⟩

theorem matches_row_of_decodeWord (h : decodeWord w = .ok i) : w &&& (opcodeRow i).1 = (opcodeRow i).2 := by
  rw [← encode_of_decodeWord h]
  exact encode_matches_row i

theorem decodeWord_of_matches_row (h : w &&& (opcodeRow i).1 = (opcodeRow i).2) :
    ∃ j, decodeWord w = .ok j ∧ opcodeRow j = opcodeRow i := by
  obtain ⟨j, rfl, hj⟩ := exists_encode_of_row h
  exact ⟨j, decodeWord_encode j, hj⟩

/-- The rows are disjoint, because the decoder answers one instruction. -/
theorem opcodeRow_unique {j : Instr} (hi : w &&& (opcodeRow i).1 = (opcodeRow i).2)
    (hj : w &&& (opcodeRow j).1 = (opcodeRow j).2) : opcodeRow i = opcodeRow j := by
  obtain ⟨a, ha, hai⟩ := decodeWord_of_matches_row hi
  obtain ⟨b, hb, hbj⟩ := decodeWord_of_matches_row hj
  cases ha.symm.trans hb
  exact hai.symm.trans hbj

end

/-! ### Unrecognized words (R68, R69) -/

section
variable {w : Word}

/-- A test of the dispatch whose answer is an instruction ends in an error iff it fails and the tests after it do. -/
theorem ite_ok_eq_error_iff {c : Prop} [Decidable c] {i : Instr} {x : Except DecodeError Instr} {e : DecodeError} :
    (if c then .ok i else x) = .error e ↔ ¬c ∧ x = .error e := by
  split <;> simp [*]

theorem decode0_eq_error_iff :
    decode0 w = .error (.unrecognizedOpcode w) ↔ kkOf w ∉ ([0xE0, 0xEE] : List Byte) := by
  simp [decode0, ite_ok_eq_error_iff]

/-- The seven values of `n` are those that the nine tests of stage 2 leave over. -/
theorem decode8_eq_error_iff : decode8 w = .error (.unrecognizedOpcode w) ↔
    nOf w ∈ ([0x8, 0x9, 0xA, 0xB, 0xC, 0xD, 0xF] : List Nibble) := by
  have hrest : ∀ n : Nibble, n ∈ ([0x8, 0x9, 0xA, 0xB, 0xC, 0xD, 0xF] : List Nibble) ↔
      n ∉ ([0x0, 0x1, 0x2, 0x3, 0x4, 0x5, 0x6, 0x7, 0xE] : List Nibble) := by decide
  rw [hrest]
  simp [decode8, ite_ok_eq_error_iff]

theorem decodeE_eq_error_iff :
    decodeE w = .error (.unrecognizedOpcode w) ↔ kkOf w ∉ ([0x9E, 0xA1] : List Byte) := by
  simp [decodeE, ite_ok_eq_error_iff]

theorem decodeF_eq_error_iff : decodeF w = .error (.unrecognizedOpcode w) ↔
    kkOf w ∉ ([0x07, 0x0A, 0x15, 0x18, 0x1E, 0x29, 0x33, 0x55, 0x65] : List Byte) := by
  simp [decodeF, ite_ok_eq_error_iff]

/-- A major opcode without a stage 2 is never in error (R64). -/
theorem decodeWord_ne_error_of_prefix (h0 : prefixOf w ≠ 0x0) (h8 : prefixOf w ≠ 0x8) (hE : prefixOf w ≠ 0xE)
    (hF : prefixOf w ≠ 0xF) (e : DecodeError) : decodeWord w ≠ .error e := by
  simp only [decodeWord, if_neg h0, if_neg h8, if_neg hE, ite_ok_eq_error_iff, ne_eq, not_and]
  intro h1 h2 h3 h4 h5 h6 h7 h9 hA hB hC hD
  exact absurd (prefix_eq_F_of_ne h0 h1 h2 h3 h4 h5 h6 h7 h8 h9 hA hB hC hD hE) hF

end

/-! ### Ignored bits (R66) -/

theorem canonical_wellFormed (i : Instr) : i.canonical.wellFormed = true := by cases i <;> rfl

theorem wellFormed_iff_canonical_eq (i : Instr) : i.wellFormed = true ↔ i.canonical = i := by
  cases i with
  | cls ign | ret ign | seVxVy _ _ ign | sneVxVy _ _ ign | shrVx _ ign | shlVx _ ign =>
    simpa [Instr.wellFormed, Instr.canonical] using eq_comm
  | _ => simp [Instr.wellFormed, Instr.canonical]

end Sys2Proof

namespace Sys2Proof.Machine

/-- No meaning looks at an ignored bit. -/
theorem exec_canonical (i : Instr) (s : State) : exec i.canonical s = exec i s := by cases i <;> rfl

theorem runWord_encode (i : Instr) (s : State) : runWord (encode i) s = exec i s.advancePc :=
  runWord_of_ok (decodeWord_encode i) s

/-- The word of an instruction runs as the word with its ignored bits 0 (R66). -/
theorem runWord_encode_canonical (i : Instr) (s : State) :
    runWord (encode i) s = runWord (encode i.canonical) s := by
  rw [runWord_encode, runWord_encode, exec_canonical]

/-! ### No refusal (R68, R82, R220) -/

/-- Every instruction answers a next state or a fault. -/
theorem exec_ne_refused (i : Instr) (s : State) (r : Refusal) : exec i s ≠ .refused r := by
  cases i with
  | ret | callAddr | drwVxVyN | ldBVx | ldMemVx | ldVxMem =>
    simp only [exec, execRet, execCallAddr, execDrwVxVyN, execLdBVx, execLdMemVx, execLdVxMem]
    split <;> simp
  | _ => nofun

theorem keyPoll_ne_refused (k : Nibble) (s : State) (r : Refusal) : keyPoll k s ≠ .refused r := by
  unfold keyPoll
  split <;> simp

theorem step_ne_refused (s : State) (r : Refusal) : step s ≠ .refused r := by
  obtain ⟨k, -, hs⟩ | ⟨-, -, hs⟩ | ⟨w, i, -, -, -, hs⟩ | ⟨w, e, -, -, -, hs⟩ := step_cases s <;> rw [hs]
  · exact keyPoll_ne_refused k s r
  · nofun
  · exact exec_ne_refused i _ r
  · nofun

/-! ### The statements -/

/-- Settles O1, by cases on the instruction. -/
theorem decodeOfEncodeIsTheInstruction : Obligations.DecodeOfEncodeIsTheInstruction := decodeWord_encode

/-- Settles O2, by the two stages of the decoder. -/
theorem encodeOfTheDecodedIsTheWord : Obligations.EncodeOfTheDecodedIsTheWord := fun _ _ => encode_of_decodeWord

/-- Settles O3: with O1 and O2, a word decodes iff it is the word of an instruction, and that word is of its row. -/
theorem wordDecodesIffItMatchesARow : Obligations.WordDecodesIffItMatchesARow :=
  ⟨fun _ _ => matches_row_of_decodeWord, fun _ _ => decodeWord_of_matches_row, fun _ _ _ => opcodeRow_unique⟩

/-- Settles O4, by the four major opcodes with a stage 2 and the rest. -/
theorem unrecognizedWordsAreExactlyThese : Obligations.UnrecognizedWordsAreExactlyThese := by
  intro w
  by_cases h0 : prefixOf w = 0x0
  · rw [decodeWord_of_prefix_0 h0, decode0_eq_error_iff]
    simp [h0]
  by_cases h8 : prefixOf w = 0x8
  · rw [decodeWord_of_prefix_8 h8, decode8_eq_error_iff]
    simp [h8]
  by_cases hE : prefixOf w = 0xE
  · rw [decodeWord_of_prefix_E hE, decodeE_eq_error_iff]
    simp [hE]
  by_cases hF : prefixOf w = 0xF
  · rw [decodeWord_of_prefix_F hF, decodeF_eq_error_iff]
    simp [hF]
  · simp only [decodeWord_ne_error_of_prefix h0 h8 hE hF, h0, h8, hE, hF, false_and, or_false]

/-- Settles O5: the word of an instruction runs as the word of its canonical form. -/
theorem ignoredBitsSelectTheSameInstruction : Obligations.IgnoredBitsSelectTheSameInstruction :=
  ⟨fun g => runWord_encode_canonical (.cls g), fun g => runWord_encode_canonical (.ret g),
    fun x y g => runWord_encode_canonical (.seVxVy x y g), fun x y g => runWord_encode_canonical (.sneVxVy x y g),
    fun x g => runWord_encode_canonical (.shrVx x g), fun x g => runWord_encode_canonical (.shlVx x g),
    fun i => ⟨canonical_wellFormed i, wellFormed_iff_canonical_eq i⟩⟩

/-- Settles O6: each is the word of its instruction. -/
theorem writtenOutWordsDecode : Obligations.WrittenOutWordsDecode :=
  ⟨decodeWord_encode (.cls 0), decodeWord_encode (.callAddr 0x300), decodeWord_encode (.seVxByte 0xA 0x07),
    decodeWord_encode (.addVxVy 1 2), decodeWord_encode (.ldIAddr 0x22A), decodeWord_encode (.drwVxVyN 1 2 5),
    decodeWord_encode (.ldVxDt 3), decodeWord_encode (.ldVxK 5)⟩

/-- Settles O12, by cases on what the step does. -/
theorem noStepIsRefused : Obligations.NoStepIsRefused := step_ne_refused

end Sys2Proof.Machine
end

section
/-! SUPPORT. Control transfer, the skips, and the step that executes them (spec/40_control_flow.md). -/

namespace Sys2Proof.Machine

/-! ### Targets of the jumps -/

@[simp] theorem zextAddr_toNat (nnn : Addr) : (zextAddr nnn).toNat = nnn.toNat :=
  BitVec.toNat_setWidth_of_le (by decide)

@[simp] theorem zextByte_toNat (b : Byte) : (zextByte b).toNat = b.toNat :=
  BitVec.toNat_setWidth_of_le (by decide)

/-- The sum of `JP V0,addr` has no carry out of 16 bits (R87). -/
theorem zextAddr_add_zextByte_toNat (nnn : Addr) (b : Byte) :
    (zextAddr nnn + zextByte b).toNat = nnn.toNat + b.toNat := by
  have hsum : (zextAddr nnn).toNat + (zextByte b).toNat < 2 ^ 16 := by
    rw [zextAddr_toNat, zextByte_toNat]
    omega
  rw [BitVec.toNat_add_of_lt hsum, zextAddr_toNat, zextByte_toNat]

/-! ### Call and return -/

/-- `RET` on a stack that is not empty (R83). -/
theorem exec_ret_of_pos {s : State} (g : Nibble) (h : s.sp.val ≠ 0) :
    exec (.ret g) s =
      .next ({ s with sp := ⟨s.sp.val - 1, by omega⟩ }.setPc (s.stack[s.sp.val - 1]'(by omega))) :=
  execRet_eq_next.mpr ⟨_, _, State.pop_of_pos h, rfl⟩

/-- `RET` on an empty stack (R222). -/
theorem exec_ret_of_empty {s : State} (g : Nibble) (h : s.sp.val = 0) :
    exec (.ret g) s = .fault .stackUnderflow := by
  simp [exec, execRet, State.pop_of_empty h]

/-- `CALL` below the capacity of the stack (R85). -/
theorem exec_callAddr_of_lt {s : State} (nnn : Addr) (h : s.sp.val < 16) :
    exec (.callAddr nnn) s =
      .next ({ s with stack := s.stack.set s.sp.val s.pc h, sp := ⟨s.sp.val + 1, by omega⟩ }.setPc (zextAddr nnn)) :=
  execCallAddr_eq_next.mpr ⟨_, State.push_of_lt s.pc h, rfl⟩

/-- `CALL` on a full stack (R221). -/
theorem exec_callAddr_of_full {s : State} (nnn : Addr) (h : s.sp.val = 16) :
    exec (.callAddr nnn) s = .fault .stackOverflow := by
  simp [exec, execCallAddr, State.push_of_full s.pc h]

/-! ### The step of an instruction -/

/-- A running step whose fetched word decodes executes the instruction, after the pre-increment (R81, R82). -/
theorem step_of_decodeWord {s : State} {w : Word} {i : Instr} (hrun : s.mode = .running) (hw : s.fetch = .ok w)
    (hi : decodeWord w = .ok i) : step s = exec i s.advancePc := by
  simp [step, hrun, hw, runWord_of_ok hi]

/-- Settles O8, by the fetch up to `0xFFE`. -/
theorem stepExecutesTheDecodedInstruction : Obligations.StepExecutesTheDecodedInstruction :=
  fun _ _ hrun hpc hi => step_of_decodeWord hrun (State.fetch_of_le hpc) hi

end Sys2Proof.Machine

namespace Sys2Proof.Safety

open Sys2Proof.Machine

/-! ### The law of the skips (R92) -/

section
variable {p : Prop} [Decidable p] {c : Bool} (s : State)

/-- A skip taken when `p` holds. -/
theorem skipIf_of_iff (h : c = true ↔ p) :
    ∃ t, skipIf c s = .next t ∧ t.pc = (if p then s.pc + 2 else s.pc) ∧ SameExcept [.pc] s t := by
  refine ⟨_, rfl, ?_, sameExcept_skipIf rfl⟩
  by_cases hp : p
  · rw [if_pos hp, if_pos (h.mpr hp), State.advancePc_pc]
  · rw [if_neg hp, if_neg (mt h.mp hp)]

/-- A skip taken when `p` fails. -/
theorem skipIf_of_iff_not (h : c = true ↔ ¬p) :
    ∃ t, skipIf c s = .next t ∧ t.pc = (if p then s.pc else s.pc + 2) ∧ SameExcept [.pc] s t := by
  simpa only [ite_not] using skipIf_of_iff s h

end

/-! ### The statements -/

/-- Settles O15, by the two cases of the pop. -/
theorem retPopsTheStackIntoPc : Obligations.RetPopsTheStackIntoPc := by
  refine fun g s => ⟨fun hsp => ?_, exec_ret_of_empty g⟩
  have hret := exec_ret_of_pos g hsp
  exact ⟨_, hret, Nat.sub_one_add_one hsp, rfl, Vector.getElem?_eq_getElem _, exec_sameExcept hret⟩

/-- Settles O17, by the two cases of the push. -/
theorem callPushesTheNextAddress : Obligations.CallPushesTheNextAddress := by
  refine fun nnn s => ⟨fun hsp => ?_, exec_callAddr_of_full nnn⟩
  have hcall := exec_callAddr_of_lt nnn hsp
  refine ⟨_, hcall, rfl, fun k hk => ?_, zextAddr_toNat nnn, exec_sameExcept hcall⟩
  rw [State.setPc_stack, Vector.getElem?_set]
  simp only [eq_comm]

/-- Settles O18: by O17 slot `SP` holds the return address, and by O15 that slot is the one popped. -/
theorem retAfterCallComesBack : Obligations.RetAfterCallComesBack := by
  intro nnn g s t u hsp hcall hsame
  obtain ⟨t', ht', hsp', hslot, -, -⟩ := (callPushesTheNextAddress nnn s).1 hsp
  cases ht'.symm.trans hcall
  obtain ⟨husp, hustack⟩ : u.sp = t.sp ∧ u.stack = t.stack := hsame .stack (by decide)
  obtain ⟨z, hz, hzsp, -, hzpc, -⟩ := (retPopsTheStackIntoPc g u).1 (by omega)
  have hdepth : z.sp.val = s.sp.val := by omega
  rw [hustack, hslot _ (by omega), if_pos hdepth] at hzpc
  exact ⟨z, hz, (Option.some.inj hzpc).symm, Fin.ext hdepth⟩

/-- Settles O16: the targets fit in 16 bits. -/
theorem jumpsAssignPc : Obligations.JumpsAssignPc := fun nnn s =>
  ⟨⟨_, rfl, zextAddr_toNat nnn, sameExcept_setPc s _⟩,
    ⟨_, rfl, zextAddr_add_zextByte_toNat nnn (s.getV 0), sameExcept_setPc s _⟩⟩

/-- Settles O19, by the law of the skips. -/
theorem immediateSkips : Obligations.ImmediateSkips := fun _ _ s =>
  ⟨skipIf_of_iff s beq_iff_eq, skipIf_of_iff_not s bne_iff_ne⟩

/-- Settles O20, by the law of the skips: the ignored bits are not looked at. -/
theorem registerSkips : Obligations.RegisterSkips := fun _ _ _ s =>
  ⟨skipIf_of_iff s beq_iff_eq, skipIf_of_iff_not s bne_iff_ne⟩

end Sys2Proof.Safety
end

section
/-! SUPPORT. Register load, arithmetic and logic (spec/41_alu.md): the bytes and the flags as numbers, and the law of an
instruction that writes a register, alone or with the flag after it. -/

namespace Sys2Proof.Machine

/-! ### Flags as numbers (R11) -/

/-- The flag of a condition. -/
theorem flagByte_decide (p : Prop) [Decidable p] : flagByte (decide p) = if p then 1 else 0 := by
  simp [flagByte]

theorem flagByte_toNat (c : Bool) : (flagByte c).toNat = c.toNat := by cases c <;> rfl

/-- The flag of a condition as a number. -/
theorem flagByte_decide_toNat (p : Prop) [Decidable p] : (flagByte (decide p)).toNat = if p then 1 else 0 := by
  rw [flagByte_decide]
  split <;> rfl

/-- The bit that `SHR` shifts out is the remainder of the halving (R108). -/
theorem flagByte_shiftedOutRight_toNat (a : Byte) : (flagByte (shiftedOutRight a)).toNat = a.toNat % 2 := by
  have hbit : (shiftedOutRight a).toNat = a.toNat / 2 ^ 0 % 2 := Nat.toNat_testBit a.toNat 0
  rw [flagByte_toNat, hbit, pow_zero, Nat.div_one]

/-- The bit that `SHL` shifts out is the carry of the doubling (R110). -/
theorem flagByte_shiftedOutLeft_toNat (a : Byte) : (flagByte (shiftedOutLeft a)).toNat = a.toNat / 128 := by
  have hbit : (shiftedOutLeft a).toNat = a.toNat / 2 ^ 7 % 2 := Nat.toNat_testBit a.toNat 7
  rw [flagByte_toNat, hbit]
  omega

/-! ### Differences and shifts as numbers (R111) -/

theorem byte_sub_toNat (a b : Byte) : (a - b).toNat = (a.toNat + 256 - b.toNat) % 256 := by
  rw [BitVec.toNat_sub]
  omega

theorem byte_sub_toNat_int (a b : Byte) : ((a - b).toNat : Int) = ((a.toNat : Int) - b.toNat) % 256 := by
  rw [byte_sub_toNat]
  omega

theorem byte_ushiftRight_one_toNat (a : Byte) : (a >>> 1).toNat = a.toNat / 2 := by
  rw [BitVec.toNat_ushiftRight, Nat.shiftRight_one]

theorem byte_shiftLeft_one_toNat (a : Byte) : (a <<< 1).toNat = 2 * a.toNat % 256 := by
  rw [BitVec.toNat_shiftLeft, Nat.shiftLeft_eq, pow_one, mul_comm]

/-! ### The order of the two writes (R112) -/

/-- The result is written first and the flag last, each given as the number it stands for. -/
theorem next_setVThenFlag_of_toNat {s : State} {x : Nibble} {b : Byte} {c : Bool} {result flag : Nat}
    (hr : b.toNat = result) (hf : (flagByte c).toNat = flag) :
    (.next (s.setVThenFlag x b c) : Result) =
      .next ((s.setV x (BitVec.ofNat 8 result)).setV 0xF (BitVec.ofNat 8 flag)) := by
  subst hr hf
  simp [State.setVThenFlag, State.setFlag]

end Sys2Proof.Machine

namespace Sys2Proof.Safety

open Sys2Proof.Machine

/-! ### The law of an instruction that writes a register -/

section
variable {s : State} {x : Nibble} {b : Byte} {c : Bool} {R F : Byte → Prop}

/-- An instruction that writes `b` to `V[x]` and no flag: whatever holds of `b` holds of `V[x]` after it. -/
theorem next_setV_spec (hR : R b) :
    ∃ t, (.next (s.setV x b) : Result) = .next t ∧ R (t.getV x) ∧ RegsExcept [x] s t ∧ SameExcept [.v] s t := by
  refine ⟨_, rfl, ?_, fun r hr => ?_, sameExcept_setV s x b⟩
  · rwa [State.getV_setV, if_pos rfl]
  · rw [State.getV_setV, if_neg (List.ne_of_not_mem_cons hr)]

/-- An instruction that writes `b` to `V[x]` and then a flag: `V[x]` holds `b` unless the flag overwrote it (R112). -/
theorem next_setVThenFlag_spec (hR : R b) (hF : F (flagByte c)) :
    ∃ t, (.next (s.setVThenFlag x b c) : Result) = .next t ∧ (x ≠ 0xF → R (t.getV x)) ∧ F (t.getV 0xF) ∧
      RegsExcept [x, 0xF] s t ∧ SameExcept [.v] s t := by
  refine ⟨_, rfl, fun hx => ?_, ?_, fun r hr => ?_, sameExcept_setVThenFlag s x b c⟩
  · rwa [State.getV_setVThenFlag, if_neg hx, if_pos rfl]
  · rwa [State.getV_setVThenFlag, if_pos rfl]
  · obtain ⟨hrx, hrF⟩ : r ≠ x ∧ r ≠ 0xF := by simpa using hr
    rw [State.getV_setVThenFlag, if_neg hrF, if_neg hrx]

end

/-! ### The statements -/

/-- Settles O25: the sum of two bytes is modulo 256, and the flag is its carry. -/
theorem addRegistersWithCarry : Obligations.AddRegistersWithCarry := fun x y s =>
  next_setVThenFlag_spec (R := (BitVec.toNat · = _)) (F := (· = _))
    (BitVec.toNat_add (s.getV x) (s.getV y)) (flagByte_decide _)

/-- Settles O26: the difference of two bytes is modulo 256, with the operands of `SUBN` exchanged. -/
theorem subtractWithNoBorrowFlag : Obligations.SubtractWithNoBorrowFlag := fun x y s =>
  ⟨next_setVThenFlag_spec (R := fun v => (v.toNat : Int) = _) (F := (· = _))
      (byte_sub_toNat_int (s.getV x) (s.getV y)) (flagByte_decide _),
    next_setVThenFlag_spec (R := fun v => (v.toNat : Int) = _) (F := (· = _))
      (byte_sub_toNat_int (s.getV y) (s.getV x)) (flagByte_decide _)⟩

/-- Settles O27: the shifts halve and double `V[x]`, and the flag is the bit that leaves the byte. -/
theorem shiftByOneIntoFlag : Obligations.ShiftByOneIntoFlag := fun x _ s =>
  ⟨next_setVThenFlag_spec (R := (BitVec.toNat · = _)) (F := (BitVec.toNat · = _))
      (byte_ushiftRight_one_toNat (s.getV x)) (flagByte_shiftedOutRight_toNat (s.getV x)),
    next_setVThenFlag_spec (R := (BitVec.toNat · = _)) (F := (BitVec.toNat · = _))
      (byte_shiftLeft_one_toNat (s.getV x)) (flagByte_shiftedOutLeft_toNat (s.getV x))⟩

/-- Settles O28: each of the five is `setVThenFlag`, with its result and flag read as numbers. -/
theorem flagIsWrittenLast : Obligations.FlagIsWrittenLast := fun x y _ s =>
  ⟨next_setVThenFlag_of_toNat (BitVec.toNat_add (s.getV x) (s.getV y)) (flagByte_decide_toNat _),
    next_setVThenFlag_of_toNat (byte_sub_toNat (s.getV x) (s.getV y)) (flagByte_decide_toNat _),
    next_setVThenFlag_of_toNat (byte_sub_toNat (s.getV y) (s.getV x)) (flagByte_decide_toNat _),
    next_setVThenFlag_of_toNat (byte_ushiftRight_one_toNat (s.getV x)) (flagByte_shiftedOutRight_toNat (s.getV x)),
    next_setVThenFlag_of_toNat (byte_shiftLeft_one_toNat (s.getV x)) (flagByte_shiftedOutLeft_toNat (s.getV x))⟩

/-- Settles O22: both write the byte they name. -/
theorem loadsCopyIntoVx : Obligations.LoadsCopyIntoVx := fun _ _ _ _ =>
  ⟨next_setV_spec (R := (· = _)) rfl, next_setV_spec (R := (· = _)) rfl⟩

/-- Settles O23: the sum of two bytes is modulo 256. -/
theorem addImmediateWrapsWithoutFlag : Obligations.AddImmediateWrapsWithoutFlag := fun x kk s =>
  next_setV_spec (R := (BitVec.toNat · = _)) (BitVec.toNat_add (s.getV x) kk)

/-- Settles O24: the operations on bytes are the Boolean ones on their bits. -/
theorem logicIsBitwiseWithoutFlag : Obligations.LogicIsBitwiseWithoutFlag := fun x y s =>
  ⟨next_setV_spec (R := fun v => ∀ b < 8, v.getLsbD b = ((s.getV x).getLsbD b || (s.getV y).getLsbD b))
      fun _ _ => BitVec.getLsbD_or,
    next_setV_spec (R := fun v => ∀ b < 8, v.getLsbD b = ((s.getV x).getLsbD b && (s.getV y).getLsbD b))
      fun _ _ => BitVec.getLsbD_and,
    next_setV_spec (R := fun v => ∀ b < 8, v.getLsbD b = ((s.getV x).getLsbD b ^^ (s.getV y).getLsbD b))
      fun _ _ => BitVec.getLsbD_xor⟩

end Sys2Proof.Safety
end

section
/-! SUPPORT. Index register, transfers through `I` and the random byte (spec/42_index_memory_random.md): the range check
and the digits as numbers, and the law of a transfer in range and out of it. -/

namespace Sys2Proof.Machine

/-! ### Values as numbers -/

/-- The address of a glyph fits in 16 bits (R124). -/
theorem glyphAddr_toNat (d : Nibble) : (glyphAddr d).toNat = 0x050 + d.toNat * 5 := by
  rw [glyphAddr, Config.fontOffset, BitVec.toNat_ofNat]
  omega

/-- `LD F` looks at the low nibble of the register alone (R124). -/
theorem glyphAddr_lowDigit_toNat (b : Byte) : (glyphAddr (lowDigit b)).toNat = 0x050 + b.toNat % 16 * 5 := by
  rw [glyphAddr_toNat, lowDigit_toNat]

/-- The sum of `ADD I,Vx` is modulo `2^16` (R123). -/
theorem index_add_zextByte_toNat (i : Word) (b : Byte) :
    (i + zextByte b).toNat = (i.toNat + b.toNat) % 65536 := by
  rw [BitVec.toNat_add, zextByte_toNat]

/-- A byte masked by `kk` has no bit outside `kk` (R122). -/
theorem masked_and_not (r kk : Byte) : (r &&& kk) &&& ~~~kk = 0 := by
  rw [BitVec.and_assoc, BitVec.and_not_self]
  exact BitVec.and_zero

/-- The tens digit of a byte (R125). -/
theorem byte_div_ten_mod_ten_toNat (b : Byte) : (b / 10 % 10).toNat = b.toNat / 10 % 10 := by
  rw [BitVec.toNat_umod, BitVec.toNat_udiv]
  rfl

/-! ### The range check (R45, R46) -/

section
variable {s : State} {k : Nat}

/-- A transfer whose last byte is byte `k` is in range. -/
theorem State.dataInRange_succ (h : s.addrWrapCompat = true ∨ s.i.toNat + k ≤ 0xFFF) :
    s.dataInRange (k + 1) = true := by
  obtain hwrap | hle := h
  · exact State.dataInRange_of_wrap hwrap _
  · simp [State.dataInRange, ← Nat.add_assoc, hle]

/-- A transfer whose last byte is byte `k` is out of range. -/
theorem State.dataInRange_succ_eq_false (hwrap : s.addrWrapCompat = false) (hgt : 0xFFF < s.i.toNat + k) :
    s.dataInRange (k + 1) = false := by
  simp [State.dataInRange, ← Nat.add_assoc, hwrap, hgt]

end

/-- Two states with the same `I` and the same parameter transfer through the same addresses (R121). -/
theorem State.dataAddr_congr {s t : State} (hi : t.i = s.i) (hwrap : t.addrWrapCompat = s.addrWrapCompat) (k : Nat) :
    t.dataAddr k = s.dataAddr k := by
  rw [State.dataAddr, State.dataAddr, hi, hwrap]

/-! ### Loads and stores out of range -/

section
variable {s : State}

theorem State.readData_of_outOfRange {n : Nat} (h : s.dataInRange n = false) :
    s.readData n = .error .outOfRangeMemoryAccess := by
  rw [State.readData_eq, h]
  rfl

theorem State.writeData_of_outOfRange {bytes : List Byte} (h : s.dataInRange bytes.length = false) :
    s.writeData bytes = .error .outOfRangeMemoryAccess := by
  obtain ⟨hin, -⟩ | ⟨-, hf⟩ := s.writeData_cases bytes
  · cases h.symm.trans hin
  · exact hf

variable {x : Nibble} {f : Fault}

theorem execLdBVx_eq_fault : execLdBVx x s = .fault f ↔ s.writeData (bcdDigits (s.getV x)) = .error f := by
  unfold execLdBVx
  cases s.writeData (bcdDigits (s.getV x)) <;> simp

theorem execLdMemVx_eq_fault : execLdMemVx x s = .fault f ↔ s.writeData (s.bulkBytes x) = .error f := by
  unfold execLdMemVx
  cases s.writeData (s.bulkBytes x) <;> simp

theorem execLdVxMem_eq_fault : execLdVxMem x s = .fault f ↔ s.readData (bulkLength x) = .error f := by
  unfold execLdVxMem
  cases s.readData (bulkLength x) <;> simp

end

/-! ### Loads and stores in range -/

/-- A store in range puts each byte where it belongs and leaves every other (R45). -/
theorem State.writeData_of_inRange {s : State} {bytes : List Byte} (hw : s.mem.wf = true)
    (hlen : bytes.length ≤ Config.memSize) (hr : s.dataInRange bytes.length = true) :
    ∃ t, s.writeData bytes = .ok t ∧
      (∀ k, ∀ hk : k < bytes.length, Memory.read t.mem (s.dataAddr k) = bytes[k]) ∧
      ∀ a, (∀ k < bytes.length, a ≠ s.dataAddr k) → Memory.read t.mem a = Memory.read s.mem a := by
  obtain ⟨-, m, hm, -, hframe, hread⟩ | ⟨hout, -⟩ := s.writeData_cases bytes
  · exact ⟨_, hm, hread hw hlen, hframe⟩
  · cases hout.symm.trans hr

/-- What the registers hold after a bulk load of the bytes at `I` (R127). -/
theorem State.getV_setBulk_read (s : State) (x r : Nibble) :
    (s.setBulk 0 ((List.range (bulkLength x)).map fun k => Memory.read s.mem (s.dataAddr k))).getV r =
      if r.toNat ≤ x.toNat then Memory.read s.mem (s.dataAddr r.toNat) else s.getV r := by
  rw [State.getV_setBulk _ _ _ (by simpa using bulkLength_le x)]
  simp [bulkLength]

/-- The byte that a bulk store takes from `V[r]` (R126). -/
theorem State.bulkBytes_getElem_toNat (s : State) (x r : Nibble) (h : r.toNat < (s.bulkBytes x).length) :
    (s.bulkBytes x)[r.toNat] = s.getV r := by
  rw [State.bulkBytes_getElem, BitVec.ofNat_toNat, BitVec.setWidth_eq]

end Sys2Proof.Machine

namespace Sys2Proof.Safety

open Sys2Proof.Machine

/-- An instruction that completes leaves every register but its destinations and the flag of a flag writer. -/
theorem exec_regsExcept {i : Instr} {s t : State} {changed : List Nibble} (h : exec i s = .next t)
    (hc : ∀ r, r ∉ changed → isDestination i r = false ∧ (writesFlag i = false ∨ r ≠ 0xF)) :
    RegsExcept changed s t := fun r hr => exec_getV h (hc r hr).1 (hc r hr).2

/-! ### The statements -/

/-- Settles O29: both values fit in 16 bits. -/
theorem indexLoads : Obligations.IndexLoads := fun nnn x s =>
  ⟨⟨_, rfl, zextAddr_toNat nnn, sameExcept_setI s _⟩,
    ⟨_, rfl, glyphAddr_lowDigit_toNat (s.getV x), sameExcept_setI s _⟩⟩

/-- Settles O30: the byte is the one drawn. -/
theorem randomByteIsMasked : Obligations.RandomByteIsMasked := by
  intro x kk s
  have hexec : exec (.rndVxByte x kk) s = .next (s.draw.2.setV x (s.draw.1 &&& kk)) := rfl
  have hx : (s.draw.2.setV x (s.draw.1 &&& kk)).getV x = s.draw.1 &&& kk :=
    (State.getV_setV _ x _ x).trans (if_pos rfl)
  refine ⟨_, s.draw.1, hexec, hx, ?_, exec_regsExcept hexec fun r hr => ?_, exec_sameExcept hexec⟩
  · rw [hx, masked_and_not]
  · simpa [isDestination, writesFlag] using hr

/-- Settles O31: the sum of two words is modulo `2^16`, and the flag is that of the sum as numbers. -/
theorem addToIndexFlagsOverflow : Obligations.AddToIndexFlagsOverflow := by
  intro x s
  have hexec : exec (.addIVx x) s =
      .next ((s.setI (s.i + zextByte (s.getV x))).setFlag (indexOverflow s.i (s.getV x))) := rfl
  refine ⟨_, hexec, index_add_zextByte_toNat s.i (s.getV x), ?_, exec_regsExcept hexec fun r hr => ?_,
    exec_sameExcept hexec⟩
  · rw [State.getV_setFlag, if_pos rfl]
    exact flagByte_decide _
  · exact ⟨rfl, .inr (List.ne_of_not_mem_cons hr)⟩

/-- Settles O32: a store of three bytes, each digit read as a number. -/
theorem storeBcdDigits : Obligations.StoreBcdDigits := by
  refine fun x s hw => ⟨fun hr => ?_, fun hwrap hgt => ?_⟩
  · obtain ⟨t, ht, hread, hframe⟩ :=
      State.writeData_of_inRange (bytes := bcdDigits (s.getV x)) hw (by simp [Config.memSize])
        (State.dataInRange_succ hr)
    refine ⟨t, execLdBVx_eq_next.mpr ht, ?_, ?_, ?_, hframe, sameExcept_writeData ht⟩
    · exact (congrArg BitVec.toNat (hread 0 (by simp))).trans BitVec.toNat_udiv
    · exact (congrArg BitVec.toNat (hread 1 (by simp))).trans (byte_div_ten_mod_ten_toNat (s.getV x))
    · exact (congrArg BitVec.toNat (hread 2 (by simp))).trans BitVec.toNat_umod
  · exact execLdBVx_eq_fault.mpr (State.writeData_of_outOfRange (State.dataInRange_succ_eq_false hwrap hgt))

/-- Settles O33: a store of the bytes `V[0]` to `V[x]`. -/
theorem storeRegisters : Obligations.StoreRegisters := by
  refine fun x s hw => ⟨fun hr => ?_, fun hwrap hgt => ?_⟩
  · have hlen : (s.bulkBytes x).length = x.toNat + 1 := s.bulkBytes_length x
    obtain ⟨t, ht, hread, hframe⟩ := State.writeData_of_inRange (bytes := s.bulkBytes x) hw
      (by rw [hlen, Config.memSize]; omega) (hlen ▸ State.dataInRange_succ hr)
    refine ⟨t, execLdMemVx_eq_next.mpr ht, fun r hrx => ?_, fun a ha => ?_, sameExcept_writeData ht⟩
    · rw [hread r.toNat (by omega), State.bulkBytes_getElem_toNat]
    · exact hframe a fun k hk => ha k (by omega)
  · refine execLdMemVx_eq_fault.mpr (State.writeData_of_outOfRange ?_)
    rw [State.bulkBytes_length]
    exact State.dataInRange_succ_eq_false hwrap hgt

/-- Settles O34: a load of the bytes at `I` into `V[0]` to `V[x]`. -/
theorem loadRegisters : Obligations.LoadRegisters := by
  refine fun x s => ⟨fun hr => ?_, fun hwrap hgt => ?_⟩
  · have hload := (s.readData_eq (bulkLength x)).trans (if_pos (State.dataInRange_succ hr))
    exact ⟨_, execLdVxMem_eq_next.mpr ⟨_, hload, rfl⟩, s.getV_setBulk_read x, sameExcept_setBulk s 0 _⟩
  · exact execLdVxMem_eq_fault.mpr (State.readData_of_outOfRange (State.dataInRange_succ_eq_false hwrap hgt))

/-- A bulk store that completes was in range. -/
theorem inRange_of_exec_ldMemVx {x : Nibble} {s t : State} (hw : s.mem.wf = true)
    (h : exec (.ldMemVx x) s = .next t) : s.addrWrapCompat = true ∨ s.i.toNat + x.toNat ≤ 0xFFF := by
  by_contra hout
  obtain ⟨hwrap, hgt⟩ := not_or.mp hout
  cases h.symm.trans ((storeRegisters x s hw).2 (by simpa using hwrap) (by omega))

/-- Settles O35: by O33 the stored bytes stand at the addresses from which, by O34, the load takes them. -/
theorem loadAfterStoreRestoresRegisters : Obligations.LoadAfterStoreRestoresRegisters := by
  intro x s t u hw hstore hsame
  have hr := inRange_of_exec_ldMemVx hw hstore
  obtain ⟨t', ht', hread, -, hst⟩ := (storeRegisters x s hw).1 hr
  cases ht'.symm.trans hstore
  have hsu := hst.trans hsame
  have hi : u.i = s.i := hsu .i (by decide)
  obtain ⟨hwrap, -⟩ : u.addrWrapCompat = s.addrWrapCompat ∧ u.font = s.font := hsu .param (by decide)
  have hmem : ∀ a, Memory.read u.mem a = Memory.read t.mem a := hsame .mem (by decide)
  obtain ⟨z, hz, hload, -⟩ := (loadRegisters x u).1 (by rwa [hi, hwrap])
  refine ⟨z, hz, fun r => (hload r).trans ?_⟩
  split
  · next hrx => rw [hmem, State.dataAddr_congr hi hwrap, hread r hrx]
  · rfl

end Sys2Proof.Safety
end

section
/-! SUPPORT. The framebuffer controller (spec/43_display.md): the loops of `Draw` as one pass over the cells of the
sprite, whose targets are distinct, and from it the closed form of R148; what sets `DIRTY`. -/

namespace Sys2Proof.Machine

/-! ### Flags, the range check, and what leaves the screen -/

theorem flagByte_eq_one_iff {c : Bool} : flagByte c = 1 ↔ c = true := by cases c <;> decide

/-- The range check of a transfer (R45, R46). -/
theorem State.dataInRange_iff {s : State} {n : Nat} :
    s.dataInRange n = true ↔ s.addrWrapCompat = true ∨ n = 0 ∨ s.i.toNat + n - 1 ≤ 0xFFF := by
  simp [State.dataInRange, or_assoc]

/-- A poll of the keypad leaves the framebuffer controller (R184). -/
theorem keyPoll_fbc {r : Nibble} {s t : State} (h : keyPoll r s = .next t) : t.fbc = s.fbc := by
  unfold keyPoll at h
  split at h <;> cases h <;> rfl

/-- Loading an image leaves the framebuffer controller (R201). -/
theorem hostLoadProgram_fbc {bytes : List Byte} {s t : State} (h : hostLoadProgram bytes s = .ok t) :
    t.fbc = s.fbc := by
  unfold hostLoadProgram at h
  split at h <;> cases h
  rfl

/-! ### The pixel under a cell of a sprite (R147) -/

/-- The pixel of a grid at a position `(px, py)`. -/
def pixelAt (g : Grid) (p : Fin 64 × Fin 32) : Bool := g[p.2.val][p.1.val]

theorem Fbc.pixel_eq (f : Fbc) (px : Fin 64) (py : Fin 32) : f.pixel px py = pixelAt f.fb (px, py) := rfl

/-- Controllers whose pixels and `DIRTY` read alike are equal. -/
theorem Fbc.ext_pixel {f g : Fbc} (hpix : ∀ px py, f.pixel px py = g.pixel px py) (hdirty : f.dirty = g.dirty) :
    f = g := by
  have hfb : f.fb = g.fb := Vector.ext fun y hy => Vector.ext fun x hx => hpix ⟨x, hx⟩ ⟨y, hy⟩
  cases f
  cases g
  cases hfb
  cases hdirty
  rfl

/-- The column of the screen under column `j` of a sprite drawn at `vx`. -/
def spriteColumn (vx : Byte) (j : Nat) : Fin 64 := ⟨(vx.toNat + j) % 64, Nat.mod_lt _ (by decide)⟩

/-- The line of the screen under row `i` of a sprite drawn at `vy`. -/
def spriteLine (vy : Byte) (i : Nat) : Fin 32 := ⟨(vy.toNat + i) % 32, Nat.mod_lt _ (by decide)⟩

theorem spriteColumn_inj {vx : Byte} {j j' : Nat} (hj : j < 64) (hj' : j' < 64) :
    spriteColumn vx j = spriteColumn vx j' ↔ j = j' := by
  simp only [spriteColumn, Fin.mk.injEq]
  omega

theorem spriteLine_inj {vy : Byte} {i i' : Nat} (hi : i < 32) (hi' : i' < 32) :
    spriteLine vy i = spriteLine vy i' ↔ i = i' := by
  simp only [spriteLine, Fin.mk.injEq]
  omega

/-! ### The loops of `Draw` as one pass over the cells (R144) -/

/-- A cell of a sprite: its row, its column and its bit. -/
abbrev SpriteCell := Nat × Nat × Bool

/-- The cells of a sprite in the order of `Draw`'s loops, the first row being row `i`. -/
def spriteCells : Nat → List Byte → List SpriteCell
  | _, [] => []
  | i, row :: rows => ((List.range 8).map fun j => (i, j, spriteBit row j)) ++ spriteCells (i + 1) rows

section
variable {vx vy : Byte}

/-- The position a cell is drawn at. -/
def spriteTarget (vx vy : Byte) (c : SpriteCell) : Fin 64 × Fin 32 := (spriteColumn vx c.2.1, spriteLine vy c.1)

/-- The body of `Draw`'s loops over a list of cells. -/
def drawCells (vx vy : Byte) (cells : List SpriteCell) (acc : Grid × Bool) : Grid × Bool :=
  cells.foldl (fun acc c => drawPixel vx vy c.1 c.2.1 c.2.2 acc) acc

theorem drawRows_eq_drawCells (i : Nat) (rows : List Byte) (acc : Grid × Bool) :
    drawRows vx vy i rows acc = drawCells vx vy (spriteCells i rows) acc := by
  induction rows generalizing i acc with
  | nil => rfl
  | cons row rows ih =>
    rw [drawRows, ih, spriteCells, drawCells, drawCells, List.foldl_append, List.foldl_map]
    rfl

/-- `Draw` is the pass over all the cells of the sprite. -/
theorem drawSprite_eq_drawCells (rows : List Byte) (f : Fbc) :
    drawSprite vx vy rows f =
      ({ fb := (drawCells vx vy (spriteCells 0 rows) (f.fb, false)).1, dirty := true },
        (drawCells vx vy (spriteCells 0 rows) (f.fb, false)).2) := by
  rw [← drawRows_eq_drawCells]
  rfl

theorem mem_spriteCells {i : Nat} {rows : List Byte} {c : SpriteCell} :
    c ∈ spriteCells i rows ↔ ∃ k, ∃ h : k < rows.length, ∃ j < 8, c = (i + k, j, spriteBit rows[k] j) := by
  induction rows generalizing i with
  | nil => simp [spriteCells]
  | cons row rows ih =>
    simp only [spriteCells, List.mem_append, List.mem_map, List.mem_range, ih]
    constructor
    · rintro (⟨j, hj, rfl⟩ | ⟨k, hk, j, hj, rfl⟩)
      · exact ⟨0, by simp, j, hj, rfl⟩
      · exact ⟨k + 1, by simpa using hk, j, hj, by simp [Nat.add_assoc, Nat.add_comm 1 k]⟩
    · rintro ⟨_ | k, hk, j, hj, rfl⟩
      · exact .inl ⟨j, hj, rfl⟩
      · exact .inr ⟨k, by simpa using hk, j, hj, by simp [Nat.add_assoc, Nat.add_comm 1 k]⟩

/-- Two cells of a sprite of at most 32 rows are drawn at two positions (R148). -/
theorem spriteCells_pairwise (vx vy : Byte) {i : Nat} {rows : List Byte} (h : i + rows.length ≤ 32) :
    (spriteCells i rows).Pairwise fun c d => spriteTarget vx vy c ≠ spriteTarget vx vy d := by
  induction rows generalizing i with
  | nil => simp [spriteCells]
  | cons row rows ih =>
    simp only [List.length_cons] at h
    refine List.pairwise_append.mpr ⟨?_, ih (by omega), fun c hc d hd he => ?_⟩
    · refine List.pairwise_map.mpr (List.nodup_range.imp_of_mem fun {j j'} hj hj' hne he => hne ?_)
      rw [List.mem_range] at hj hj'
      exact (spriteColumn_inj (by omega) (by omega)).mp (congrArg Prod.fst he)
    · obtain ⟨j, -, rfl⟩ := List.mem_map.mp hc
      obtain ⟨k, hk, j', -, rfl⟩ := mem_spriteCells.mp hd
      have := (spriteLine_inj (by omega) (by omega)).mp (congrArg Prod.snd he)
      omega

/-- The grid after one cell: the pixel at its target is XORed with its bit. -/
theorem drawPixel_pixelAt (c : SpriteCell) (acc : Grid × Bool) (p : Fin 64 × Fin 32) :
    pixelAt (drawPixel vx vy c.1 c.2.1 c.2.2 acc).1 p =
      if spriteTarget vx vy c = p then pixelAt acc.1 p ^^ c.2.2 else pixelAt acc.1 p := by
  refine (drawPixel_grid vx vy c.1 c.2.1 c.2.2 acc p.1 p.2 p.1.isLt p.2.isLt).trans ?_
  simp only [spriteTarget, Prod.ext_iff, Fin.ext_iff, spriteColumn, spriteLine, pixelAt, eq_comm]

/-- One cell leaves the pixels that are not its target. -/
theorem drawPixel_pixelAt_of_ne {c : SpriteCell} {p : Fin 64 × Fin 32} (h : spriteTarget vx vy c ≠ p)
    (acc : Grid × Bool) : pixelAt (drawPixel vx vy c.1 c.2.1 c.2.2 acc).1 p = pixelAt acc.1 p :=
  (drawPixel_pixelAt c acc p).trans (if_neg h)

variable {cells : List SpriteCell} (h : cells.Pairwise fun c d => spriteTarget vx vy c ≠ spriteTarget vx vy d)
include h

/-- The grid after cells with distinct targets: the pixels under a 1 are inverted. -/
theorem drawCells_pixelAt (acc : Grid × Bool) (p : Fin 64 × Fin 32) :
    pixelAt (drawCells vx vy cells acc).1 p =
      (pixelAt acc.1 p ^^ decide (∃ c ∈ cells, c.2.2 = true ∧ spriteTarget vx vy c = p)) := by
  induction cells generalizing acc with
  | nil => simp [drawCells]
  | cons c cells ih =>
    obtain ⟨hc, hcells⟩ := List.pairwise_cons.mp h
    refine (ih hcells _).trans ?_
    rw [drawPixel_pixelAt]
    by_cases hp : spriteTarget vx vy c = p
    · have hnone : ¬∃ d ∈ cells, d.2.2 = true ∧ spriteTarget vx vy d = p :=
        fun ⟨d, hd, _, hdp⟩ => hc d hd (hp.trans hdp.symm)
      simp [hp, hnone]
    · simp [hp]

/-- The collision after cells with distinct targets: some lit pixel lay under a 1. -/
theorem drawCells_collision (acc : Grid × Bool) :
    (drawCells vx vy cells acc).2 = true ↔
      acc.2 = true ∨ ∃ c ∈ cells, c.2.2 = true ∧ pixelAt acc.1 (spriteTarget vx vy c) = true := by
  induction cells generalizing acc with
  | nil => simp [drawCells]
  | cons c cells ih =>
    obtain ⟨hc, hcells⟩ := List.pairwise_cons.mp h
    have hkept : ∀ d ∈ cells, pixelAt (drawPixel vx vy c.1 c.2.1 c.2.2 acc).1 (spriteTarget vx vy d) =
        pixelAt acc.1 (spriteTarget vx vy d) := fun d hd => drawPixel_pixelAt_of_ne (hc d hd) acc
    have hfirst : (drawPixel vx vy c.1 c.2.1 c.2.2 acc).2 =
        (acc.2 || (c.2.2 && pixelAt acc.1 (spriteTarget vx vy c))) := drawPixel_collision ..
    refine (ih hcells _).trans ?_
    rw [hfirst, List.exists_mem_cons_iff, Bool.or_eq_true, Bool.and_eq_true, or_assoc]
    refine or_congr_right (or_congr_right (exists_congr fun d => and_congr_right fun hd => ?_))
    rw [hkept d hd]

end

end Sys2Proof.Machine

namespace Sys2Proof.Safety

open Sys2Proof.Machine

/-! ### The closed form (R148) -/

section
variable {vx vy : Byte} {rows : List Byte}

/-- The mask is 1 exactly under the 1 bits of the sprite. -/
theorem spriteMask_iff (h : rows.length ≤ 32) (px : Fin 64) (py : Fin 32) :
    spriteMask vx vy rows px py = true ↔ ∃ i, ∃ hi : i < rows.length, ∃ j < 8,
      spriteBit rows[i] j = true ∧ spriteColumn vx j = px ∧ spriteLine vy i = py := by
  simp only [spriteMask, Bool.and_eq_true, decide_eq_true_eq, spriteColumn, spriteLine, Fin.ext_iff]
  constructor
  · rintro ⟨⟨hi, hj⟩, hbit⟩
    refine ⟨_, hi, _, hj, ?_, by omega, by omega⟩
    rwa [List.getD_eq_getElem _ _ hi] at hbit
  · rintro ⟨i, hi, j, hj, hbit, hx, hy⟩
    have hi' : (((py.val : Int) - vy.toNat) % 32).toNat = i := by omega
    have hj' : (((px.val : Int) - vx.toNat) % 64).toNat = j := by omega
    rw [hi', hj', List.getD_eq_getElem _ _ hi]
    exact ⟨⟨hi, hj⟩, hbit⟩

/-- The mask is 1 exactly at the targets of the cells with bit 1. -/
theorem spriteMask_iff_cells (h : rows.length ≤ 32) (p : Fin 64 × Fin 32) :
    spriteMask vx vy rows p.1 p.2 = true ↔
      ∃ c ∈ spriteCells 0 rows, c.2.2 = true ∧ spriteTarget vx vy c = p := by
  rw [spriteMask_iff h]
  constructor
  · rintro ⟨i, hi, j, hj, hbit, hx, hy⟩
    exact ⟨_, mem_spriteCells.mpr ⟨i, hi, j, hj, rfl⟩, hbit, by simp [spriteTarget, hx, hy]⟩
  · rintro ⟨c, hc, hbit, rfl⟩
    obtain ⟨i, hi, j, hj, rfl⟩ := mem_spriteCells.mp hc
    exact ⟨i, hi, j, hj, hbit, rfl, by simp [spriteTarget]⟩

/-- A blank sprite has the mask 0. -/
theorem spriteMask_of_blank (h : ∀ b ∈ rows, b = 0) (hlen : rows.length ≤ 32) (px : Fin 64) (py : Fin 32) :
    spriteMask vx vy rows px py = false := by
  refine Bool.eq_false_iff.mpr fun hm => ?_
  obtain ⟨i, hi, j, -, hbit, -⟩ := (spriteMask_iff hlen px py).mp hm
  rw [h _ (List.getElem_mem hi)] at hbit
  simp [spriteBit] at hbit

/-- The mask of start coordinates reduced to the screen is the same (R149). -/
theorem spriteMask_mod (px : Fin 64) (py : Fin 32) :
    spriteMask (BitVec.ofNat 8 (vx.toNat % 64)) (BitVec.ofNat 8 (vy.toNat % 32)) rows px py =
      spriteMask vx vy rows px py := by
  have hx : ((px.val : Int) - (BitVec.ofNat 8 (vx.toNat % 64)).toNat) % 64 = ((px.val : Int) - vx.toNat) % 64 := by
    rw [BitVec.toNat_ofNat]
    omega
  have hy : ((py.val : Int) - (BitVec.ofNat 8 (vy.toNat % 32)).toNat) % 32 = ((py.val : Int) - vy.toNat) % 32 := by
    rw [BitVec.toNat_ofNat]
    omega
  simp only [spriteMask, hx, hy]

variable (h : rows.length ≤ 32) (f : Fbc)
include h

/-- `Draw` XORs the mask into the screen (R148). -/
theorem drawSprite_pixel (px : Fin 64) (py : Fin 32) :
    (drawSprite vx vy rows f).1.pixel px py = (f.pixel px py ^^ spriteMask vx vy rows px py) := by
  have hdistinct := spriteCells_pairwise vx vy (i := 0) (rows := rows) (by omega)
  rw [drawSprite_eq_drawCells, Fbc.pixel_eq, Fbc.pixel_eq, drawCells_pixelAt hdistinct]
  refine congrArg _ (Bool.eq_iff_iff.mpr ?_)
  rw [decide_eq_true_eq, spriteMask_iff_cells h (px, py)]

/-- `Draw` collides iff some lit pixel lies under a 1 of the mask (R148). -/
theorem drawSprite_collision :
    (drawSprite vx vy rows f).2 = true ↔
      ∃ px py, f.pixel px py = true ∧ spriteMask vx vy rows px py = true := by
  have hdistinct := spriteCells_pairwise vx vy (i := 0) (rows := rows) (by omega)
  rw [drawSprite_eq_drawCells, drawCells_collision hdistinct]
  simp only [Bool.false_eq_true, false_or]
  constructor
  · rintro ⟨c, hc, hbit, hlit⟩
    exact ⟨_, _, hlit, (spriteMask_iff_cells h _).mpr ⟨c, hc, hbit, rfl⟩⟩
  · rintro ⟨px, py, hlit, hm⟩
    obtain ⟨c, hc, hbit, ht⟩ := (spriteMask_iff_cells h (px, py)).mp hm
    exact ⟨c, hc, hbit, ht ▸ hlit⟩

/-- A draw collides iff it turns a pixel off (R146). -/
theorem drawSprite_collision_iff_turnedOff :
    (drawSprite vx vy rows f).2 = true ↔
      ∃ px py, f.pixel px py = true ∧ (drawSprite vx vy rows f).1.pixel px py = false := by
  rw [drawSprite_collision h]
  refine exists_congr fun px => exists_congr fun py => and_congr_right fun hlit => ?_
  rw [drawSprite_pixel h, hlit, Bool.true_xor, Bool.not_eq_false']

/-- A draw collides iff a lit pixel lies under a 1 bit of the sprite (R146). -/
theorem drawSprite_collision_iff_bit :
    (drawSprite vx vy rows f).2 = true ↔ ∃ i, ∃ hi : i < rows.length, ∃ j < 8,
      spriteBit rows[i] j = true ∧ f.pixel (spriteColumn vx j) (spriteLine vy i) = true := by
  rw [drawSprite_collision h]
  constructor
  · rintro ⟨px, py, hlit, hm⟩
    obtain ⟨i, hi, j, hj, hbit, rfl, rfl⟩ := (spriteMask_iff h px py).mp hm
    exact ⟨i, hi, j, hj, hbit, hlit⟩
  · rintro ⟨i, hi, j, hj, hbit, hlit⟩
    exact ⟨_, _, hlit, (spriteMask_iff h _ _).mpr ⟨i, hi, j, hj, hbit, rfl, rfl⟩⟩

/-- No collision where no lit pixel lies under a 1 of the mask. -/
theorem drawSprite_collision_eq_false
    (hapart : ∀ px py, f.pixel px py = false ∨ spriteMask vx vy rows px py = false) :
    (drawSprite vx vy rows f).2 = false := by
  refine Bool.eq_false_iff.mpr fun hc => ?_
  obtain ⟨px, py, hlit, hm⟩ := (drawSprite_collision h f).mp hc
  obtain hoff | hoff := hapart px py
  · cases hoff.symm.trans hlit
  · cases hoff.symm.trans hm

end

/-- The start coordinates of a draw count modulo the screen (R149). -/
theorem drawSprite_mod {rows : List Byte} (h : rows.length ≤ 32) (vx vy : Byte) (f : Fbc) :
    drawSprite (BitVec.ofNat 8 (vx.toNat % 64)) (BitVec.ofNat 8 (vy.toNat % 32)) rows f =
      drawSprite vx vy rows f := by
  refine Prod.ext (Fbc.ext_pixel (fun px py => ?_) rfl) (Bool.eq_iff_iff.mpr ?_)
  · rw [drawSprite_pixel h, drawSprite_pixel h, spriteMask_mod]
  · simp only [drawSprite_collision h, spriteMask_mod]

/-! ### `DRW` (R145) -/

section
variable {x y n : Nibble} {s : State}

/-- `DRW` in range draws the bytes at `I` and then writes the flag. -/
theorem exec_drwVxVyN_of_inRange (h : s.dataInRange n.toNat = true) :
    let drawn := drawSprite (s.getV x) (s.getV y)
      ((List.range n.toNat).map fun k => Memory.read s.mem (s.dataAddr k)) s.fbc
    exec (.drwVxVyN x y n) s = .next ((s.setFbc drawn.1).setFlag drawn.2) :=
  execDrwVxVyN_eq_next.mpr ⟨_, (s.readData_eq n.toNat).trans (if_pos h), rfl⟩

theorem exec_drwVxVyN_of_outOfRange (h : s.dataInRange n.toNat = false) :
    exec (.drwVxVyN x y n) s = .fault .outOfRangeMemoryAccess := by
  simp [exec, execDrwVxVyN, State.readData_of_outOfRange h]

/-- `DRW` writes no register but the flag (R11). -/
theorem exec_drwVxVyN_regsExcept {t : State} (h : exec (.drwVxVyN x y n) s = .next t) : RegsExcept [0xF] s t :=
  exec_regsExcept h fun _ hr => ⟨rfl, .inr (List.ne_of_not_mem_cons hr)⟩

end

/-! ### What sets `DIRTY` (R150) -/

/-- The two instructions that draw. -/
def IsDisplayInstr (i : Instr) : Prop := (∃ g, i = .cls g) ∨ ∃ x y n, i = .drwVxVyN x y n

theorem exec_dirty_of_isDisplayInstr {i : Instr} {s t : State} (h : exec i s = .next t) (hi : IsDisplayInstr i) :
    t.fbc.dirty = true := by
  obtain ⟨g, rfl⟩ | ⟨x, y, n, rfl⟩ := hi
  · cases h
    rfl
  · obtain ⟨rows, -, rfl⟩ := execDrwVxVyN_eq_next.mp h
    rfl

/-- An instruction that does not draw leaves `DIRTY`. -/
theorem exec_dirty_of_not_isDisplayInstr {i : Instr} {s t : State} (h : exec i s = .next t)
    (hi : ¬IsDisplayInstr i) : t.fbc.dirty = s.fbc.dirty := by
  refine exec_sameExcept h .dirty fun hd => hi ?_
  cases i with
  | cls g => exact .inl ⟨g, rfl⟩
  | drwVxVyN x y n => exact .inr ⟨x, y, n, rfl⟩
  | _ => simp [partsWritten] at hd

/-- Everything a step can do to `DIRTY`: leave it, or execute an instruction that draws and set it. -/
theorem step_dirty_cases {s t : State} (h : step s = .next t) :
    t.fbc.dirty = s.fbc.dirty ∨
    (t.fbc.dirty = true ∧ ∃ w i, s.fetch = .ok w ∧ decodeWord w = .ok i ∧ IsDisplayInstr i) := by
  obtain ⟨r, -, hs⟩ | ⟨-, -, hs⟩ | ⟨w, i, -, hf, hd, hs⟩ | ⟨w, e, -, -, -, hs⟩ := step_cases s <;> rw [hs] at h
  · exact .inl (congrArg Fbc.dirty (keyPoll_fbc h))
  · cases h
  · by_cases hi : IsDisplayInstr i
    · exact .inr ⟨exec_dirty_of_isDisplayInstr h hi, w, i, hf, hd, hi⟩
    · exact .inl (exec_dirty_of_not_isDisplayInstr (s := s.advancePc) h hi)
  · cases h
    exact .inl rfl

/-- No step clears `DIRTY`. -/
theorem step_keeps_dirty {s t : State} (h : step s = .next t) (hd : s.fbc.dirty = true) : t.fbc.dirty = true := by
  obtain hkept | ⟨hset, -⟩ := step_dirty_cases h
  · exact hkept.trans hd
  · exact hset

/-- No operation of the host but `take_dirty()` and `init()` clears `DIRTY`. -/
theorem perform_keeps_dirty {op : HostOp} {s : State} (htake : op ≠ .takeDirty) (hinit : op ≠ .init)
    (hd : s.fbc.dirty = true) : (perform op s).1.fbc.dirty = true := by
  cases op with
  | init => exact absurd rfl hinit
  | takeDirty => exact absurd rfl htake
  | loadProgram bytes =>
    obtain hl | hl := perform_loadProgram_cases bytes s
    · rwa [hostLoadProgram_fbc hl]
    · rwa [hl]
  | step =>
    obtain hs | hs := perform_step_cases s
    · exact step_keeps_dirty hs hd
    · rwa [hs]
  | tickTimers | setKey | framebuffer => exact hd

/-! ### The statements -/

/-- Settles O38, by the two cases of the range check. -/
theorem drawInstructionDrawsTheSprite : Obligations.DrawInstructionDrawsTheSprite := by
  intro x y n s rows drawn
  refine ⟨fun hr => ?_, fun hwrap hn hgt => exec_drwVxVyN_of_outOfRange (Bool.eq_false_iff.mpr fun hr => ?_)⟩
  · have hexec := exec_drwVxVyN_of_inRange (x := x) (y := y) (State.dataInRange_iff.mpr hr)
    exact ⟨_, hexec, fun _ _ => rfl, rfl, (State.getV_setFlag _ _ 0xF).trans (if_pos rfl),
      exec_drwVxVyN_regsExcept hexec, exec_sameExcept hexec⟩
  · obtain hwrap' | hn' | hle := State.dataInRange_iff.mp hr
    · cases hwrap.symm.trans hwrap'
    · omega
    · omega

/-- Settles O40: the sprite's cells have distinct targets, so `Draw` inverts each pixel of the mask once. -/
theorem drawHasTheClosedForm : Obligations.DrawHasTheClosedForm := by
  refine ⟨fun vx vy rows f h => ?_, fun vx vy i i' j j' hi hi' hj hj' hx hy => ?_⟩
  · have hlen : rows.length ≤ 32 := by omega
    exact ⟨drawSprite_pixel hlen f, drawSprite_collision hlen f⟩
  · exact ⟨(spriteLine_inj (by omega) (by omega)).mp (Fin.ext hy),
      (spriteColumn_inj (by omega) (by omega)).mp (Fin.ext hx)⟩

/-- Settles O41, by the closed form; a `DRW` that completes has drawn the bytes it read. -/
theorem collisionIsAPixelTurnedOff : Obligations.CollisionIsAPixelTurnedOff := by
  refine ⟨fun vx vy rows f h => ?_, fun x y n s t ht => ?_⟩
  · have hlen : rows.length ≤ 32 := by omega
    exact ⟨drawSprite_collision_iff_turnedOff hlen f, drawSprite_collision_iff_bit hlen f⟩
  · obtain ⟨rows, hrows, rfl⟩ := execDrwVxVyN_eq_next.mp ht
    have hlen : rows.length ≤ 32 := by
      rw [State.readData_length hrows]
      omega
    rw [State.getV_setFlag, if_pos rfl]
    exact ⟨flagByte_zero_or_one _, flagByte_eq_one_iff.trans (drawSprite_collision_iff_turnedOff hlen s.fbc)⟩

/-- Settles O42: each law is one of the closed form, where XOR with the mask is its own inverse and commutes. -/
theorem lawsOfDraw : Obligations.LawsOfDraw := by
  intro vx vy rows f h d dd
  have hlen : rows.length ≤ 32 := by omega
  have hd : ∀ px py, d.1.pixel px py = (f.pixel px py ^^ spriteMask vx vy rows px py) := drawSprite_pixel hlen f
  have hdd : ∀ px py, dd.1.pixel px py = f.pixel px py := fun px py => by
    rw [drawSprite_pixel hlen d.1, hd, Bool.xor_assoc, Bool.xor_self, Bool.xor_false]
  refine ⟨hdd, ?_, fun hblank => ?_, fun hzero => ?_, fun vx' vy' rows' h' px py => ?_, drawSprite_mod hlen vx vy f⟩
  · rw [drawSprite_collision_iff_turnedOff hlen d.1]
    refine exists_congr fun px => exists_congr fun py => ?_
    rw [hdd, and_comm]
  · refine ⟨drawSprite_collision_eq_false hlen f fun px py => .inl (hblank px py), fun px py => ?_⟩
    rw [hd, hblank, Bool.false_xor]
  · have hmask := spriteMask_of_blank (vx := vx) (vy := vy) hzero hlen
    refine ⟨drawSprite_collision_eq_false hlen f fun px py => .inr (hmask px py), rfl, fun px py => ?_⟩
    rw [hd, hmask, Bool.xor_false]
  · have hlen' : rows'.length ≤ 32 := by omega
    rw [drawSprite_pixel hlen', hd, drawSprite_pixel hlen, drawSprite_pixel hlen', Bool.xor_right_comm]

/-- Settles O43, by what a step and an operation of the host can do to `DIRTY`. -/
theorem dirtyStaysUntilTaken : Obligations.DirtyStaysUntilTaken := by
  refine ⟨fun g _ _ h => exec_dirty_of_isDisplayInstr h (.inl ⟨g, rfl⟩),
    fun x y n _ _ h => exec_dirty_of_isDisplayInstr h (.inr ⟨x, y, n, rfl⟩),
    fun _ _ => step_keeps_dirty, fun s t h hclear hset => ?_, fun _ _ => perform_keeps_dirty⟩
  obtain hkept | ⟨-, hdraws⟩ := step_dirty_cases h
  · cases hset.symm.trans (hkept.trans hclear)
  · exact hdraws

/-- Settles O37: `CLS` is `Clear`. -/
theorem clearBlanksTheScreen : Obligations.ClearBlanksTheScreen :=
  ⟨fun f => ⟨clearScreen_pixel f, rfl⟩,
    fun _ s => ⟨_, rfl, clearScreen_pixel s.fbc, rfl, sameExcept_setFbc s (clearScreen s.fbc)⟩⟩

/-- Settles O39: by O38 the drawn rows are none, whatever `I` holds. -/
theorem drawOfNoRows : Obligations.DrawOfNoRows := by
  intro x y s
  obtain ⟨t, ht, hpix, hdirty, hflag, hregs, hsame⟩ := (drawInstructionDrawsTheSprite x y 0 s).1 (.inr (.inl rfl))
  refine ⟨t, ht, hflag, hdirty, hregs, fun p hp => ?_⟩
  by_cases hfb : p = .fb
  · subst hfb
    exact hpix
  · exact hsame p (by simpa [hfb] using hp)

end Sys2Proof.Safety
end

section
/-! SUPPORT. The timer pair (spec/44_timers.md): a tick as subtraction, what can write a counter, and that no other
operation looks at the pair. -/

namespace Sys2Proof.Machine

/-! ### Counting down (R166) -/

/-- A counter on one tick as a number: the subtraction of `Nat` stops at 0 too. -/
@[simp] theorem countDown_toNat (b : Byte) : (countDown b).toNat = b.toNat - 1 := by
  unfold countDown
  split
  · next h => simp [h]
  · bv_omega

@[simp] theorem hostTickTimers_dt_toNat (s : State) : (hostTickTimers s).tmr.dt.toNat = s.tmr.dt.toNat - 1 :=
  countDown_toNat s.tmr.dt

@[simp] theorem hostTickTimers_st_toNat (s : State) : (hostTickTimers s).tmr.st.toNat = s.tmr.st.toNat - 1 :=
  countDown_toNat s.tmr.st

/-- The counters after `k` ticks (R172). -/
theorem runOps_replicate_tickTimers_toNat (k : Nat) (s : State) :
    (runOps (List.replicate k .tickTimers) s).1.tmr.dt.toNat = s.tmr.dt.toNat - k ∧
    (runOps (List.replicate k .tickTimers) s).1.tmr.st.toNat = s.tmr.st.toNat - k := by
  induction k generalizing s with
  | zero => exact ⟨rfl, rfl⟩
  | succ k ih =>
    obtain ⟨hdt, hst⟩ := ih (hostTickTimers s)
    rw [hostTickTimers_dt_toNat] at hdt
    rw [hostTickTimers_st_toNat] at hst
    exact ⟨hdt.trans (by omega), hst.trans (by omega)⟩

/-! ### No operation of the engine looks at the pair (R165, R171)

What each answers, it answers with any other pair in place: the next state is the same but for the pair. -/

section
variable {s t : State} (τ : Tmr)

theorem State.pop_setTmr {w : Word} (h : s.pop = .ok (w, t)) : (s.setTmr τ).pop = .ok (w, t.setTmr τ) := by
  by_cases hsp : s.sp.val = 0
  · cases (State.pop_of_empty hsp).symm.trans h
  · cases (State.pop_of_pos hsp).symm.trans h
    exact State.pop_of_pos (s := s.setTmr τ) hsp

theorem State.push_setTmr {w : Word} (h : s.push w = .ok t) : (s.setTmr τ).push w = .ok (t.setTmr τ) := by
  by_cases hsp : s.sp.val < 16
  · cases (State.push_of_lt w hsp).symm.trans h
    exact State.push_of_lt (s := s.setTmr τ) w hsp
  · cases (State.push_of_full w (by omega)).symm.trans h

theorem State.dataCells_setTmr (k : Nat) (bytes : List Byte) :
    (s.setTmr τ).dataCells k bytes = s.dataCells k bytes := by
  induction bytes generalizing k with
  | nil => rfl
  | cons b bytes ih => exact congrArg ((s.dataAddr k, b) :: ·) (ih (k + 1))

theorem State.writeData_setTmr {bytes : List Byte} (h : s.writeData bytes = .ok t) :
    (s.setTmr τ).writeData bytes = .ok (t.setTmr τ) := by
  unfold State.writeData at h ⊢
  rw [State.setTmr_dataInRange, State.dataCells_setTmr]
  split at h <;> cases h
  next hr => exact if_pos hr

theorem State.setBulk_setTmr (s : State) (k : Nat) (bytes : List Byte) :
    (s.setTmr τ).setBulk k bytes = (s.setBulk k bytes).setTmr τ := by
  induction bytes generalizing s k with
  | nil => rfl
  | cons b bytes ih => exact ih (s.setV (BitVec.ofNat 4 k) b) (k + 1)

theorem skipIf_setTmr {c : Bool} (h : skipIf c s = .next t) : skipIf c (s.setTmr τ) = .next (t.setTmr τ) := by
  cases c <;> cases h <;> rfl

theorem keyPoll_setTmr {r : Nibble} (h : keyPoll r s = .next t) :
    keyPoll r (s.setTmr τ) = .next (t.setTmr τ) := by
  have hkey : (s.setTmr τ).firstKey = s.firstKey := rfl
  unfold keyPoll at h ⊢
  rw [hkey]
  split at h <;> cases h <;> rfl

/-- Only `LD Vx,DT` reads the pair, and only `LD DT,Vx` and `LD ST,Vx` write it: to any other instruction it is one
more thing that stays. -/
theorem exec_setTmr {i : Instr} (hread : ∀ x, i ≠ .ldVxDt x) (hdt : ∀ x, i ≠ .ldDtVx x) (hst : ∀ x, i ≠ .ldStVx x)
    (h : exec i s = .next t) : exec i (s.setTmr τ) = .next (t.setTmr τ) := by
  cases i with
  | ldVxDt x => exact absurd rfl (hread x)
  | ldDtVx x => exact absurd rfl (hdt x)
  | ldStVx x => exact absurd rfl (hst x)
  | ret =>
    obtain ⟨w, u, hpop, rfl⟩ := execRet_eq_next.mp h
    exact execRet_eq_next.mpr ⟨w, _, State.pop_setTmr τ hpop, rfl⟩
  | callAddr =>
    obtain ⟨u, hpush, rfl⟩ := execCallAddr_eq_next.mp h
    exact execCallAddr_eq_next.mpr ⟨_, State.push_setTmr τ hpush, rfl⟩
  | drwVxVyN =>
    obtain ⟨rows, hrows, rfl⟩ := execDrwVxVyN_eq_next.mp h
    exact execDrwVxVyN_eq_next.mpr ⟨rows, hrows, rfl⟩
  | ldBVx => exact execLdBVx_eq_next.mpr (State.writeData_setTmr τ (execLdBVx_eq_next.mp h))
  | ldMemVx => exact execLdMemVx_eq_next.mpr (State.writeData_setTmr τ (execLdMemVx_eq_next.mp h))
  | ldVxMem =>
    obtain ⟨bytes, hbytes, rfl⟩ := execLdVxMem_eq_next.mp h
    exact execLdVxMem_eq_next.mpr ⟨bytes, hbytes, s.setBulk_setTmr τ 0 bytes⟩
  | seVxByte | sneVxByte | seVxVy | sneVxVy | skpVx | sknpVx => exact skipIf_setTmr τ h
  | cls | jpAddr | jpV0Addr | ldVxByte | addVxByte | ldVxVy | orVxVy | andVxVy | xorVxVy | addVxVy | subVxVy | shrVx
  | subnVxVy | shlVx | ldIAddr | rndVxByte | ldVxK | addIVx | ldFVx =>
    cases h
    rfl

end

/-! ### The key wait -/

/-- A poll of the keypad leaves the timer pair (R184). -/
theorem keyPoll_tmr {r : Nibble} {s t : State} (h : keyPoll r s = .next t) : t.tmr = s.tmr := by
  unfold keyPoll at h
  split at h <;> cases h <;> rfl

/-- A step in the key wait is a poll of the keypad (R184). -/
theorem step_of_waiting {s : State} {r : Nibble} (hwait : s.mode = .waitingForKey r) : step s = keyPoll r s := by
  simp [step, hwait]

end Sys2Proof.Machine

namespace Sys2Proof.Safety

open Sys2Proof.Machine

/-! ### What writes a counter (R168, R169, R170) -/

theorem sameExcept_setTmr (s : State) (τ : Tmr) : SameExcept [.dt, .st] s (s.setTmr τ) := fun p hp => by
  cases p <;> simp_all [Part.same]

/-- Everything an instruction can do to the timer pair: leave it, or load one counter. -/
theorem exec_tmr_cases {i : Instr} {s t : State} (h : exec i s = .next t) :
    t.tmr = s.tmr ∨
    (∃ x, i = .ldDtVx x ∧ t.tmr = loadDt (s.getV x) s.tmr) ∨
    ∃ x, i = .ldStVx x ∧ t.tmr = loadSt (s.getV x) s.tmr := by
  cases i with
  | ldDtVx x =>
    cases h
    exact .inr (.inl ⟨x, rfl, rfl⟩)
  | ldStVx x =>
    cases h
    exact .inr (.inr ⟨x, rfl, rfl⟩)
  | _ =>
    have hdt := exec_sameExcept h .dt (by simp [partsWritten])
    have hst := exec_sameExcept h .st (by simp [partsWritten])
    exact .inl (congrArg₂ Tmr.mk hdt hst)

/-- An instruction that loads neither counter leaves the pair. -/
theorem exec_tmr {i : Instr} {s t : State} (hdt : ∀ x, i ≠ .ldDtVx x) (hst : ∀ x, i ≠ .ldStVx x)
    (h : exec i s = .next t) : t.tmr = s.tmr := by
  obtain hkept | ⟨x, hi, -⟩ | ⟨x, hi, -⟩ := exec_tmr_cases h
  · exact hkept
  · exact absurd hi (hdt x)
  · exact absurd hi (hst x)

/-- Everything a step can do to the timer pair: leave it, or leave it to the instruction fetched. -/
theorem step_tmr_cases {s t : State} (h : step s = .next t) :
    t.tmr = s.tmr ∨ ∃ w i, s.fetch = .ok w ∧ decodeWord w = .ok i ∧ exec i s.advancePc = .next t := by
  obtain ⟨r, -, hs⟩ | ⟨-, -, hs⟩ | ⟨w, i, -, hf, hd, hs⟩ | ⟨w, e, -, -, -, hs⟩ := step_cases s <;> rw [hs] at h
  · exact .inl (keyPoll_tmr h)
  · cases h
  · exact .inr ⟨w, i, hf, hd, h⟩
  · cases h
    exact .inl rfl

/-! ### The statements -/

/-- Settles O46, by induction on the number of ticks: the subtraction of `Nat` is the one with floor 0. -/
theorem ticksCountDownToZero : Obligations.TicksCountDownToZero := by
  intro k s t
  obtain ⟨hdt, hst⟩ : t.tmr.dt.toNat = s.tmr.dt.toNat - k ∧ t.tmr.st.toNat = s.tmr.st.toNat - k :=
    runOps_replicate_tickTimers_toNat k s
  exact ⟨by omega, by omega⟩

/-- Settles O47: the counter that changed is the one the instruction fetched has loaded. -/
theorem stepsDoNotTick : Obligations.StepsDoNotTick := by
  intro s t h
  obtain hkept | ⟨w, i, hf, hd, hexec⟩ := step_tmr_cases h
  · exact ⟨absurd (congrArg Tmr.dt hkept), absurd (congrArg Tmr.st hkept)⟩
  · obtain hkept | ⟨x, rfl, hload⟩ | ⟨x, rfl, hload⟩ := exec_tmr_cases hexec
    · exact ⟨absurd (congrArg Tmr.dt hkept), absurd (congrArg Tmr.st hkept)⟩
    · exact ⟨fun _ => ⟨w, x, hf, hd⟩, absurd (hload ▸ loadDt_st _ s.tmr)⟩
    · exact ⟨absurd (hload ▸ loadSt_dt _ s.tmr), fun _ => ⟨w, x, hf, hd⟩⟩

/-- Settles O48: what looks at no counter and writes none answers the same with the ticked pair in place. -/
theorem tickCommutesWithTheRest : Obligations.TickCommutesWithTheRest := by
  refine ⟨fun i s t hread hdt hst h => ?_, fun s t r hwait h => ?_⟩
  · rw [hostTickTimers, hostTickTimers, exec_tmr hdt hst h]
    exact exec_setTmr _ hread hdt hst h
  · rw [step_of_waiting hwait] at h
    rw [step_of_waiting (s := hostTickTimers s) hwait, hostTickTimers, hostTickTimers, keyPoll_tmr h]
    exact keyPoll_setTmr _ h

/-- Settles O44: one register or one counter receives the byte. -/
theorem timerInstructionsMoveAByte : Obligations.TimerInstructionsMoveAByte := fun _ s =>
  ⟨next_setV_spec (R := (· = s.tmr.dt)) rfl, ⟨_, rfl, rfl, sameExcept_loadDt s _⟩,
    ⟨_, rfl, rfl, sameExcept_loadSt s _⟩⟩

/-- Settles O45: a tick subtracts 1 in `Nat` from each counter. -/
theorem tickCountsBothDown : Obligations.TickCountsBothDown := by
  refine fun s => ⟨hostTickTimers s, rfl, ?_, ?_, sameExcept_setTmr s _⟩
  · rw [hostTickTimers_dt_toNat]
    split <;> omega
  · rw [hostTickTimers_st_toNat]
    split <;> omega

end Sys2Proof.Safety
end

section
/-! SUPPORT. The keypad (spec/45_keypad.md): the key tests, the beginning of the key wait, and the poll that ends it or
lets it go on. -/

namespace Sys2Proof.Machine

/-! ### The poll (R184) -/

/-- With no key down a poll changes nothing. -/
theorem keyPoll_of_noKey {s : State} (r : Nibble) (h : ∀ k, s.getKey k = false) : keyPoll r s = .next s := by
  simp [keyPoll, State.firstKey_eq_none.mpr h]

/-- With `k` the smallest pressed key a poll takes `k` into `V[r]` and ends the wait. -/
theorem keyPoll_of_smallestKey {s : State} {k : Nibble} (r : Nibble) (hk : s.getKey k = true)
    (hmin : ∀ j : Nibble, j.toNat < k.toNat → s.getKey j = false) :
    keyPoll r s = .next (((s.setV r (k.setWidth 8)).advancePc).setMode .running) := by
  simp [keyPoll, State.firstKey_eq_some.mpr ⟨hk, hmin⟩]

/-! ### The step of the host -/

/-- A step that completes is what the host gets (R202). -/
theorem perform_step_of_next {s t : State} (h : step s = .next t) : perform .step s = (t, .ok) := by
  simp [perform, h]

/-- A state whose step leads back to it stays for any number of steps, none of which returns anything but `ok`. -/
theorem runOps_replicate_step_of_fixed {s : State} (h : step s = .next s) (n : Nat) :
    runOps (List.replicate n .step) s = (s, List.replicate n .ok) := by
  induction n with
  | zero => rfl
  | succ n ih => rw [List.replicate_succ, List.replicate_succ, runOps, perform_step_of_next h, ih]

/-! ### The beginning of the wait (R183) -/

/-- After the pre-increment `LD Vx,K` takes `pc` back to its own address, so the mode is all it changes. -/
theorem exec_ldVxK_advancePc (x : Nibble) (s : State) :
    exec (.ldVxK x) s.advancePc = .next (s.setMode (.waitingForKey x)) :=
  congrArg (fun pc => Host.Outcome.next ((s.setMode (.waitingForKey x)).setPc pc)) (BitVec.add_sub_cancel s.pc 2)

end Sys2Proof.Machine

namespace Sys2Proof.Safety

open Sys2Proof.Machine

theorem sameExcept_advancePc (s : State) : SameExcept [.pc] s s.advancePc := sameExcept_setPc s (s.pc + 2)

/-! ### The statements -/

/-- Settles O10, by the two cases of the poll. -/
theorem waitingStepPollsTheKeypad : Obligations.WaitingStepPollsTheKeypad := by
  intro s r hwait
  rw [step_of_waiting hwait]
  refine ⟨keyPoll_of_noKey r, fun k hk hmin => ⟨_, keyPoll_of_smallestKey r hk hmin, ?_, fun j hj => ?_, rfl, rfl, ?_⟩⟩
  · rw [State.setMode_getV, State.advancePc_getV, State.getV_setV, if_pos rfl]
    exact BitVec.toNat_setWidth_of_le (by decide)
  · rw [State.setMode_getV, State.advancePc_getV, State.getV_setV, if_neg (List.ne_of_not_mem_cons hj)]
  · exact (((sameExcept_setV s r _).trans (sameExcept_advancePc _)).trans (sameExcept_setMode _ .running)).mono (by simp)

/-- Settles O11: a poll with no key down leads back to its state, and so do all the steps after it. -/
theorem waitWithoutAKeyGoesOn : Obligations.WaitWithoutAKeyGoesOn := by
  intro n s r hwait hkeys
  have hfixed : step s = .next s := (waitingStepPollsTheKeypad s r hwait).1 hkeys
  have hrun := runOps_replicate_step_of_fixed hfixed n
  refine ⟨fun f hf => ?_, congrArg Prod.fst hrun⟩
  rw [hrun] at hf
  cases List.eq_of_mem_replicate hf

/-- Settles O21, by the law of the skips: the key named is the low digit of `V[x]`. -/
theorem keySkips : Obligations.KeySkips := by
  intro x s k hk
  have hdigit : k = lowDigit (s.getV x) := BitVec.eq_of_toNat_eq (hk.trans (lowDigit_toNat _).symm)
  subst hdigit
  exact ⟨skipIf_of_iff s Iff.rfl, skipIf_of_iff_not s (by simp)⟩

/-- Settles O49: the instruction takes the pre-increment back. -/
theorem keyWaitBeginsAtItsInstruction : Obligations.KeyWaitBeginsAtItsInstruction := by
  refine ⟨fun x s => ⟨_, rfl, rfl, rfl, exec_sameExcept (i := .ldVxK x) rfl⟩, fun x s w hrun hw hi => ?_⟩
  have hstep := (step_of_decodeWord hrun hw hi).trans (exec_ldVxK_advancePc x s)
  exact ⟨_, hstep, rfl, sameExcept_setMode s _⟩

end Sys2Proof.Safety
end

section
/-! SUPPORT. The operations of the host (spec/46_host_interface.md): the two cases of `load_program`, what the others
leave unchanged, and the commands by which an instruction, an operation and a step change the display-and-timer
block. -/

namespace Sys2Proof.Machine

/-! ### `load_program` (R201, R227) -/

section
variable {bytes : List Byte} (s : State)

/-- An image that fits is laid out in memory from `0x200` on. -/
theorem perform_loadProgram_of_le (h : bytes.length ≤ 3584) :
    perform (.loadProgram bytes) s = ({ s with mem := Memory.writeAll s.mem (cellsFrom 0x200 bytes) }, .ok) := by
  have hload : hostLoadProgram bytes s = .ok { s with mem := Memory.writeAll s.mem (cellsFrom 0x200 bytes) } :=
    if_neg (Nat.not_lt.mpr h)
  simp [perform, hload]

/-- A larger image is turned away (D22). -/
theorem perform_loadProgram_of_gt (h : 3584 < bytes.length) :
    perform (.loadProgram bytes) s = (s, .loadError .overSizedImage) := by
  have hload : hostLoadProgram bytes s = .error .overSizedImage := if_pos h
  simp [perform, hload]

end

/-! ### `set_key` (R204) -/

theorem hostSetKey_getKey (k : Nibble) (b : Bool) (s : State) (j : Nibble) :
    (hostSetKey k b s).getKey j = if j = k then b else s.getKey j := by
  simp only [State.getKey, hostSetKey, Vector.getElem_set, BitVec.toNat_inj, eq_comm (a := k)]

/-! ### The block and its commands (R195 to R198) -/

/-- A load through `I` that completes gives the bytes `DRW` hands to `Draw` (R143). -/
theorem State.readData_eq_ok {s : State} {n : Nat} {rows : List Byte} (h : s.readData n = .ok rows) :
    rows = (List.range n).map fun k => Memory.read s.mem (s.dataAddr k) := by
  rw [State.readData_eq] at h
  split at h <;> cases h
  rfl

/-- The pre-increment changes nothing that an instruction hands to the block. -/
theorem issuedBy_advancePc (s : State) (i : Instr) : issuedBy s.advancePc i = issuedBy s i := by
  cases i <;> rfl

/-- A poll of the keypad leaves the block (R184). -/
theorem keyPoll_block {r : Nibble} {s t : State} (h : keyPoll r s = .next t) : t.block = s.block :=
  Prod.ext (keyPoll_fbc h) (keyPoll_tmr h)

/-- An operation of the host but `step()` leaves the block as its own commands do. -/
theorem perform_block {op : HostOp} (s : State) (hop : op ≠ .step) :
    (perform op s).1.block = performBlockAll (issuedByHost op) s.block := by
  cases op with
  | step => exact absurd rfl hop
  | loadProgram bytes =>
    obtain hle | hgt := le_or_gt bytes.length 3584
    · rw [perform_loadProgram_of_le s hle]
      rfl
    · rw [perform_loadProgram_of_gt s hgt]
      rfl
  | init | tickTimers | setKey | framebuffer | takeDirty => rfl

end Sys2Proof.Machine

namespace Sys2Proof.Safety

open Sys2Proof.Machine

/-! ### What the host's operations leave unchanged -/

theorem sameExcept_mem (s : State) (m : Memory) : SameExcept [.mem] s { s with mem := m } := fun p hp => by
  cases p <;> simp_all [Part.same, State.getV, State.getKey]

theorem sameExcept_hostSetKey (k : Nibble) (b : Bool) (s : State) : SameExcept [.key] s (hostSetKey k b s) :=
  fun p hp => by cases p <;> simp_all [Part.same, hostSetKey, State.getV]

theorem sameExcept_takeDirty (s : State) : SameExcept [.dirty] s (s.setFbc (takeDirty s.fbc).2) := fun p hp => by
  cases p <;> simp_all [Part.same, takeDirty, Fbc.pixel]

/-! ### What an instruction and a step do to the block -/

/-- The block is four parts of the state: where none of them changes, it stays. -/
theorem SameExcept.block_eq {l : List Part} {s t : State} (h : SameExcept l s t)
    (hl : ∀ p ∈ [Part.fb, .dirty, .dt, .st], p ∉ l) : t.block = s.block :=
  Prod.ext (Fbc.ext_pixel (h .fb (hl .fb (by simp))) (h .dirty (hl .dirty (by simp))))
    (congrArg₂ Tmr.mk (h .dt (hl .dt (by simp))) (h .st (hl .st (by simp))))

/-- An instruction that completes leaves the block as the commands it issues do (R198). -/
theorem exec_block {i : Instr} {s t : State} (h : exec i s = .next t) :
    t.block = performBlockAll (issuedBy s i) s.block := by
  cases i with
  | cls | ldDtVx | ldStVx | ldVxDt =>
    cases h
    rfl
  | drwVxVyN x y n =>
    obtain ⟨rows, hrows, rfl⟩ := execDrwVxVyN_eq_next.mp h
    rw [State.readData_eq_ok hrows]
    rfl
  | _ => exact (exec_sameExcept h).block_eq (by simp [partsWritten])

/-- Everything a step can do to the block: leave it, or leave it to the instruction fetched. -/
theorem step_block_cases {s t : State} (h : step s = .next t) :
    t.block = s.block ∨
    ∃ w i, s.mode = .running ∧ s.fetch = .ok w ∧ decodeWord w = .ok i ∧
      t.block = performBlockAll (issuedBy s i) s.block := by
  obtain ⟨r, -, hs⟩ | ⟨-, -, hs⟩ | ⟨w, i, hrun, hf, hd, hs⟩ | ⟨w, e, -, -, -, hs⟩ := step_cases s <;> rw [hs] at h
  · exact .inl (keyPoll_block h)
  · cases h
  · exact .inr ⟨w, i, hrun, hf, hd, issuedBy_advancePc s i ▸ exec_block h⟩
  · cases h
    exact .inl rfl

/-! ### The statements -/

/-- Settles O57: an instruction by its commands, or by the frame of what it writes; a step by its instruction. -/
theorem blockObeysItsCommands : Obligations.BlockObeysItsCommands := by
  refine ⟨fun i s t h => exec_block h, fun x y n s t h => ?_, fun x s t h => ?_, fun op s => perform_block s,
    fun s => ?_⟩
  · obtain ⟨rows, hrows, rfl⟩ := execDrwVxVyN_eq_next.mp h
    rw [State.readData_eq_ok hrows]
    exact ⟨_, _, rfl, rfl, (State.getV_setFlag _ _ 0xF).trans (if_pos rfl)⟩
  · cases h
    rw [State.getV_setV, if_pos rfl]
    rfl
  · obtain hs | hs := perform_step_cases s
    · exact step_block_cases hs
    · exact .inl (congrArg State.block hs)

/-- Settles O50: in a canonical memory each byte laid out is read back, and no other address reads otherwise. -/
theorem loadProgramCopiesTheImage : Obligations.LoadProgramCopiesTheImage := by
  refine fun bytes s hw => ⟨fun hle => ?_, perform_loadProgram_of_gt s⟩
  have hfits : 0x200 + bytes.length ≤ Config.memSize := Nat.add_le_add_left hle 0x200
  obtain ⟨-, himage, hrest⟩ := Memory.writeAll_cellsFrom hw hfits
  exact ⟨_, perform_loadProgram_of_le s hle, himage, hrest, sameExcept_mem s _⟩

/-- Settles O51: each operation writes the one part it names, and `framebuffer()` none. -/
theorem hostTouchesOnlyItsOwn : Obligations.HostTouchesOnlyItsOwn :=
  ⟨fun k b s => ⟨_, rfl, hostSetKey_getKey k b s, sameExcept_hostSetKey k b s⟩,
    fun s => ⟨_, rfl, rfl, sameExcept_takeDirty s⟩, fun _ => ⟨_, rfl, fun _ _ => rfl⟩⟩

end Sys2Proof.Safety
end

section
/-! SUPPORT. Exceptions (spec/60_exceptions.md): when a transfer through `I`, an instruction and a step fault, what a
step that faults leaves, and that an unrecognized word is no fault. -/

namespace Sys2Proof.Machine

/-! ### Transfers through `I` (R223) -/

section
variable {s : State} {f : Fault}

/-- A transfer is out of range iff it has a byte and the last one lies above `0xFFF` (R45, R46). -/
theorem State.dataInRange_eq_false_iff {n : Nat} :
    s.dataInRange n = false ↔ s.addrWrapCompat = false ∧ 1 ≤ n ∧ 0xFFF < s.i.toNat + n - 1 := by
  rw [← Bool.not_eq_true, State.dataInRange_iff, not_or, not_or, Bool.not_eq_true, Nat.one_le_iff_ne_zero, not_le]

/-- A transfer whose last byte is byte `k` is out of range iff that byte lies above `0xFFF`. -/
theorem State.dataInRange_succ_eq_false_iff {k : Nat} :
    s.dataInRange (k + 1) = false ↔ s.addrWrapCompat = false ∧ 0xFFF < s.i.toNat + k := by
  simp [State.dataInRange_eq_false_iff, ← Nat.add_assoc]

theorem State.readData_eq_error {n : Nat} :
    s.readData n = .error f ↔ f = .outOfRangeMemoryAccess ∧ s.dataInRange n = false := by
  rw [State.readData_eq]
  cases s.dataInRange n <;> simp [eq_comm]

theorem State.writeData_eq_error {bytes : List Byte} :
    s.writeData bytes = .error f ↔ f = .outOfRangeMemoryAccess ∧ s.dataInRange bytes.length = false := by
  obtain ⟨hr, m, hm, -⟩ | ⟨hr, hf⟩ := s.writeData_cases bytes
  · simp [hm, hr]
  · simp [hf, hr, eq_comm]

/-! ### The six instructions with a fault of their own (R221, R222, R223) -/

theorem exec_ret_eq_fault {g : Nibble} : exec (.ret g) s = .fault f ↔ f = .stackUnderflow ∧ s.sp.val = 0 := by
  by_cases hsp : s.sp.val = 0
  · simp [exec_ret_of_empty g hsp, hsp, eq_comm]
  · simp [exec_ret_of_pos g hsp, hsp]

theorem exec_callAddr_eq_fault {nnn : Addr} :
    exec (.callAddr nnn) s = .fault f ↔ f = .stackOverflow ∧ s.sp.val = 16 := by
  by_cases hsp : s.sp.val = 16
  · simp [exec_callAddr_of_full nnn hsp, hsp, eq_comm]
  · simp [exec_callAddr_of_lt nnn (show s.sp.val < 16 by omega), hsp]

theorem execDrwVxVyN_eq_fault {x y n : Nibble} : execDrwVxVyN x y n s = .fault f ↔ s.readData n.toNat = .error f := by
  unfold execDrwVxVyN
  cases s.readData n.toNat <;> simp

theorem exec_drwVxVyN_eq_fault {x y n : Nibble} : exec (.drwVxVyN x y n) s = .fault f ↔
    f = .outOfRangeMemoryAccess ∧ s.addrWrapCompat = false ∧ 1 ≤ n.toNat ∧ 0xFFF < s.i.toNat + n.toNat - 1 :=
  execDrwVxVyN_eq_fault.trans (State.readData_eq_error.trans (and_congr_right' State.dataInRange_eq_false_iff))

theorem exec_ldBVx_eq_fault {x : Nibble} : exec (.ldBVx x) s = .fault f ↔
    f = .outOfRangeMemoryAccess ∧ s.addrWrapCompat = false ∧ 0xFFF < s.i.toNat + 2 :=
  execLdBVx_eq_fault.trans (State.writeData_eq_error.trans (and_congr_right' State.dataInRange_succ_eq_false_iff))

theorem exec_ldMemVx_eq_fault {x : Nibble} : exec (.ldMemVx x) s = .fault f ↔
    f = .outOfRangeMemoryAccess ∧ s.addrWrapCompat = false ∧ 0xFFF < s.i.toNat + x.toNat := by
  refine execLdMemVx_eq_fault.trans ?_
  rw [State.writeData_eq_error, State.bulkBytes_length, bulkLength, State.dataInRange_succ_eq_false_iff]

theorem exec_ldVxMem_eq_fault {x : Nibble} : exec (.ldVxMem x) s = .fault f ↔
    f = .outOfRangeMemoryAccess ∧ s.addrWrapCompat = false ∧ 0xFFF < s.i.toNat + x.toNat :=
  execLdVxMem_eq_fault.trans (State.readData_eq_error.trans (and_congr_right' State.dataInRange_succ_eq_false_iff))

end

/-! ### A step -/

/-- A poll of the keypad is no fault (R186). -/
theorem keyPoll_ne_fault (r : Nibble) (s : State) (f : Fault) : keyPoll r s ≠ .fault f := by
  unfold keyPoll
  split <;> simp

/-- A step faults iff it runs and its fetch or its instruction faults (R80, R82). -/
theorem step_eq_fault {s : State} {f : Fault} :
    step s = .fault f ↔ s.mode = .running ∧
      ((f = .outOfRangeMemoryAccess ∧ 0xFFE < s.pc.toNat) ∨
       ∃ w i, s.fetch = .ok w ∧ decodeWord w = .ok i ∧ exec i s.advancePc = .fault f) := by
  constructor
  · intro h
    obtain ⟨r, -, hs⟩ | ⟨hrun, hpc, hs⟩ | ⟨w, i, hrun, hf, hd, hs⟩ | ⟨w, e, -, -, -, hs⟩ := step_cases s <;>
      rw [hs] at h
    · exact absurd h (keyPoll_ne_fault r s f)
    · cases h
      exact ⟨hrun, .inl ⟨rfl, hpc⟩⟩
    · exact ⟨hrun, .inr ⟨w, i, hf, hd, h⟩⟩
    · cases h
  · rintro ⟨hrun, ⟨rfl, hpc⟩ | ⟨w, i, hf, hd, h⟩⟩
    · exact step_of_pc_gt hrun hpc
    · exact (step_of_decodeWord hrun hf hd).trans h

/-- The host gets the fault, and the state stays (R202, R224). -/
theorem perform_step_of_fault {s : State} {f : Fault} (h : step s = .fault f) : perform .step s = (s, .fault f) := by
  simp [perform, h]

/-- A running step that fetches an unrecognized word is the pre-increment alone (R68). -/
theorem step_of_decodeError {s : State} {w : Word} {e : DecodeError} (hrun : s.mode = .running)
    (hw : s.fetch = .ok w) (he : decodeWord w = .error e) : step s = .next s.advancePc := by
  simp [step, hrun, hw, runWord_of_error he]

end Sys2Proof.Machine

namespace Sys2Proof.Safety

open Sys2Proof.Machine

/-! ### An instruction -/

/-- The faults of the instructions as R221, R222 and R223 list them. -/
def FaultsWith (i : Instr) (s : State) (f : Fault) : Prop :=
  (f = .stackOverflow ∧ (∃ nnn, i = .callAddr nnn) ∧ s.sp.val = 16) ∨
  (f = .stackUnderflow ∧ (∃ g, i = .ret g) ∧ s.sp.val = 0) ∨
  (f = .outOfRangeMemoryAccess ∧ s.addrWrapCompat = false ∧
    ((∃ x y n, i = .drwVxVyN x y n ∧ 1 ≤ n.toNat ∧ 0xFFF < s.i.toNat + n.toNat - 1) ∨
     (∃ x, i = .ldBVx x ∧ 0xFFF < s.i.toNat + 2) ∨
     ∃ x, (i = .ldMemVx x ∨ i = .ldVxMem x) ∧ 0xFFF < s.i.toNat + x.toNat))

/-- An instruction faults in the cases listed and in no other. -/
theorem exec_eq_fault {i : Instr} {s : State} {f : Fault} : exec i s = .fault f ↔ FaultsWith i s f := by
  cases i with
  | ret => simp [FaultsWith, exec_ret_eq_fault]
  | callAddr => simp [FaultsWith, exec_callAddr_eq_fault]
  | drwVxVyN => simp [FaultsWith, exec_drwVxVyN_eq_fault]
  | ldBVx => simp [FaultsWith, exec_ldBVx_eq_fault]
  | ldMemVx => simp [FaultsWith, exec_ldMemVx_eq_fault]
  | ldVxMem => simp [FaultsWith, exec_ldVxMem_eq_fault]
  | _ => exact iff_of_false nofun (by simp [FaultsWith])

/-- Everything an instruction can do to the depth of the stack: leave it, push (R85), pop (R83). -/
theorem exec_sp_cases {i : Instr} {s t : State} (h : exec i s = .next t) :
    t.sp = s.sp ∨
    ((∃ nnn, i = .callAddr nnn) ∧ t.sp.val = s.sp.val + 1) ∨
    ((∃ g, i = .ret g) ∧ t.sp.val + 1 = s.sp.val) := by
  cases i with
  | callAddr nnn =>
    by_cases hsp : s.sp.val = 16
    · cases (exec_callAddr_of_full nnn hsp).symm.trans h
    · cases (exec_callAddr_of_lt nnn (by omega)).symm.trans h
      exact .inr (.inl ⟨⟨nnn, rfl⟩, rfl⟩)
  | ret g =>
    by_cases hsp : s.sp.val = 0
    · cases (exec_ret_of_empty g hsp).symm.trans h
    · cases (exec_ret_of_pos g hsp).symm.trans h
      exact .inr (.inr ⟨⟨g, rfl⟩, Nat.sub_one_add_one hsp⟩)
  | _ => exact .inl (exec_sameExcept h .stack (by simp [partsWritten])).1

/-! ### The statements -/

/-- Settles O13: the step by its fetch and its instruction, which the pre-increment does not make fault otherwise; the
depth by what an instruction can do to it. -/
theorem stepFaultsExactlyThen : Obligations.StepFaultsExactlyThen := by
  refine ⟨fun s f => ?_, fun i s t h => ?_⟩
  · rw [step_eq_fault]
    simp only [exec_eq_fault]
    rfl
  · obtain hsp | ⟨hcall, hsp⟩ | ⟨hret, hsp⟩ := exec_sp_cases h
    · exact ⟨fun _ => by omega, fun _ => by omega⟩
    · exact ⟨fun _ => hcall, fun _ => by omega⟩
    · exact ⟨fun _ => by omega, fun _ => hret⟩

/-- Settles O14: by O13 a fault depends on nothing that is put in place of the state's own. -/
theorem faultLeavesTheStateAndRepeats : Obligations.FaultLeavesTheStateAndRepeats := fun s f h =>
  ⟨perform_step_of_fault h, fun _ _ _ _ => (stepFaultsExactlyThen.1 _ f).mpr ((stepFaultsExactlyThen.1 s f).mp h)⟩

/-- Settles O9: the pre-increment is all that such a step does. -/
theorem unrecognizedWordOnlyAdvancesPc : Obligations.UnrecognizedWordOnlyAdvancesPc := fun s _ _ hrun hw he =>
  ⟨s.advancePc, step_of_decodeError hrun hw he, rfl, sameExcept_advancePc s⟩

end Sys2Proof.Safety
end

section
/-! SUPPORT. Reset and hazards (spec/70_reset_and_hazards.md): the state that `init()` leaves, and what no step writes,
with the ways from one mode to the other. -/

namespace Sys2Proof.Machine

/-! ### The state after `init()` (R250) -/

/-- The state `init()` leaves on a machine with font `f` and switch `wrap`, whose random source has given `draws`
bytes. -/
def initialState (f : Font) (wrap : Bool) (draws : Nat) : State :=
  { State.reset with mem := installFont f, addrWrapCompat := wrap, font := f, draws := draws }

theorem reset_eq_initialState : State.reset = initialState defaultFont false 0 := by
  rw [initialState, installFont_default]
  rfl

theorem hostInit_eq_initialState (s : State) : hostInit s = initialState s.font s.addrWrapCompat s.draws := rfl

theorem initWith_of_noClip {p : Config.Params} (h : p.spriteClip = false) :
    initWith p = .ok (initialState p.font p.addrWrapCompat 0) := by
  rw [initWith, h]
  rfl

/-- Clipping is not configurable (R152). -/
theorem initWith_of_clip {p : Config.Params} (h : p.spriteClip = true) : initWith p = .error .spriteClip := by
  simp [initWith, h]

/-- The reset state, what `init()` leaves and what a configuration gives differ in the font, the switch and the count of
draws alone. -/
theorem eq_initialState_of_init {s t : State}
    (h : t = State.reset ∨ perform .init s = (t, .ok) ∨ ∃ p, initWith p = .ok t) :
    ∃ f wrap draws, t = initialState f wrap draws := by
  obtain rfl | h | ⟨p, h⟩ := h
  · exact ⟨_, _, _, reset_eq_initialState⟩
  · cases h
    exact ⟨_, _, _, hostInit_eq_initialState s⟩
  · cases hc : p.spriteClip with
    | false =>
      cases (initWith_of_noClip hc).symm.trans h
      exact ⟨_, _, _, rfl⟩
    | true => cases (initWith_of_clip hc).symm.trans h

section
variable (f : Font) (wrap : Bool) (draws : Nat)

theorem initialState_getV (r : Nibble) : (initialState f wrap draws).getV r = 0 := by
  simp [State.getV, initialState, State.reset]

theorem initialState_getKey (k : Nibble) : (initialState f wrap draws).getKey k = false := by
  simp [State.getKey, initialState, State.reset]

theorem initialState_stack {k : Nat} (h : k < 16) : (initialState f wrap draws).stack[k]? = some 0 := by
  simp [initialState, State.reset, h]

theorem initialState_pixel (x : Fin 64) (y : Fin 32) : (initialState f wrap draws).fbc.pixel x y = false :=
  clearScreen_pixel State.reset.fbc x y

end

/-! ### A poll of the keypad (R184) -/

/-- Everything a poll can do: leave the state, or take a pressed key and end the wait. -/
theorem keyPoll_next_cases {r : Nibble} {s t : State} (h : keyPoll r s = .next t) :
    t = s ∨ ∃ k, s.getKey k = true ∧ t = ((s.setV r (k.setWidth 8)).advancePc).setMode .running := by
  unfold keyPoll at h
  cases hk : s.firstKey with
  | none =>
    rw [hk] at h
    cases h
    exact .inl rfl
  | some k =>
    rw [hk] at h
    cases h
    exact .inr ⟨k, (State.firstKey_eq_some.mp hk).1, rfl⟩

/-- Keypads that read alike are equal. -/
theorem State.key_ext {s t : State} (h : ∀ k, t.getKey k = s.getKey k) : t.key = s.key := by
  refine Vector.ext fun k hk => ?_
  simpa [State.getKey, Nat.mod_eq_of_lt hk] using h (BitVec.ofNat 4 k)

/-- An instruction that begins a wait for `V[r]` is the `LD Vx,K` with `x = r`, and leaves `pc` 2 below where it found
it (R183). -/
theorem exec_begins_wait {i : Instr} {s t : State} {r : Nibble} (h : exec i s = .next t) (hrun : s.mode = .running)
    (hwait : t.mode = .waitingForKey r) : i = .ldVxK r ∧ t.pc = s.pc - 2 := by
  obtain ⟨-, hmode⟩ | ⟨x, rfl, rfl⟩ | ⟨bytes, hb⟩ := exec_mem_mode h
  · cases hwait.symm.trans (hmode.trans hrun)
  · cases hwait
    exact ⟨rfl, rfl⟩
  · cases hwait.symm.trans ((State.writeData_ok hb).1.trans hrun)

end Sys2Proof.Machine

namespace Sys2Proof.Safety

open Sys2Proof.Machine

/-! ### What no step writes -/

/-- Every part but the keys and the parameters. -/
def partsOfSteps : List Part := [.v, .i, .pc, .stack, .mode, .mem, .fb, .dirty, .dt, .st, .draws]

theorem partsWritten_subset_partsOfSteps (i : Instr) : partsWritten i ⊆ partsOfSteps := by
  cases i <;> simp [partsWritten, partsOfSteps]

theorem sameExcept_keyPoll {r : Nibble} {s t : State} (h : keyPoll r s = .next t) :
    SameExcept [.v, .pc, .mode] s t := by
  obtain rfl | ⟨k, -, rfl⟩ := keyPoll_next_cases h
  · exact SameExcept.refl _ t
  · exact ((sameExcept_setV s r _).trans (sameExcept_advancePc _)).trans (sameExcept_setMode _ .running)

/-- No step writes a key or a parameter (R17, R46). -/
theorem step_sameExcept {s t : State} (h : step s = .next t) : SameExcept partsOfSteps s t := by
  have hadvance : SameExcept partsOfSteps s s.advancePc := (sameExcept_advancePc s).mono (by simp [partsOfSteps])
  obtain ⟨r, -, hs⟩ | ⟨-, -, hs⟩ | ⟨w, i, -, -, -, hs⟩ | ⟨w, e, -, -, -, hs⟩ := step_cases s <;> rw [hs] at h
  · exact (sameExcept_keyPoll h).mono (by simp [partsOfSteps])
  · cases h
  · have hexec := (exec_sameExcept h).mono (partsWritten_subset_partsOfSteps i)
    exact (hadvance.trans hexec).mono (by simp)
  · cases h
    exact hadvance

/-! ### The ways from one mode to the other -/

/-- A step in a wait ends it with some key down, or leaves the state (R184). -/
theorem step_in_wait {s t : State} {r : Nibble} (h : step s = .next t) (hwait : s.mode = .waitingForKey r) :
    (t.mode = .running ∧ ∃ k : Nibble, s.getKey k = true) ∨ t = s := by
  rw [step_of_waiting hwait] at h
  obtain hsame | ⟨k, hk, rfl⟩ := keyPoll_next_cases h
  · exact .inr hsame
  · exact .inl ⟨rfl, k, hk⟩

/-- A running step that begins a wait executed the `LD Vx,K` of that wait, which takes the pre-increment back (R183). -/
theorem step_begins_wait {s t : State} {r : Nibble} (h : step s = .next t) (hrun : s.mode = .running)
    (hwait : t.mode = .waitingForKey r) : t.pc = s.pc ∧ ∃ w, s.fetch = .ok w ∧ decodeWord w = .ok (.ldVxK r) := by
  obtain ⟨k, hk, -⟩ | ⟨-, -, hs⟩ | ⟨w, i, -, hf, hd, hs⟩ | ⟨w, e, -, -, -, hs⟩ := step_cases s
  · cases hrun.symm.trans hk
  · cases hs.symm.trans h
  · obtain ⟨rfl, hpc⟩ := exec_begins_wait (hs.symm.trans h) hrun hwait
    exact ⟨hpc.trans (BitVec.add_sub_cancel s.pc 2), w, hf, hd⟩
  · cases hs.symm.trans h
    cases hrun.symm.trans hwait

/-! ### The statements -/

/-- Settles O56, by the frame of a step and the two ways between the modes. -/
theorem stepsWriteNoKey : Obligations.StepsWriteNoKey := by
  intro s t h
  have hsame := step_sameExcept h
  obtain ⟨hwrap, hfont⟩ : t.addrWrapCompat = s.addrWrapCompat ∧ t.font = s.font := hsame .param (by decide)
  exact ⟨State.key_ext (hsame .key (by decide)), hwrap, hfont, fun _ => step_in_wait h, fun hrun _ =>
    step_begins_wait h hrun⟩

/-- Settles O52: each of the three is an initial state, and what an initial state holds is read off it. -/
theorem initLeavesTheResetValues : Obligations.InitLeavesTheResetValues := by
  refine ⟨fun s t h => ?_, fun s t h => ?_, ?_, fun p => ⟨fun hc => ?_, initWith_of_clip⟩⟩
  · obtain ⟨f, wrap, draws, rfl⟩ := eq_initialState_of_init h
    obtain ⟨-, hfont, hzero⟩ := installFont_spec f
    exact ⟨initialState_getV f wrap draws, rfl, rfl, rfl, fun _ => initialState_stack f wrap draws, rfl, rfl, hzero,
      hfont, f.bytes_length, initialState_pixel f wrap draws, rfl, rfl, initialState_getKey f wrap draws⟩
  · cases h
    exact ⟨rfl, rfl⟩
  · rw [reset_eq_initialState]
    exact initWith_of_noClip rfl
  · exact ⟨_, initWith_of_noClip hc, rfl, rfl⟩

end Sys2Proof.Safety
end
